-- ==== Sys2Proof/Word.lean ====
section
/-! DEFINITION. The word types of the core: the fields the spec treats as bits, each at the width the spec fixes.
A quantity whose width is an instantiation parameter (00_scope.md R8) is a natural number below the power of two the
parameter names (notes/assumptions/2.md). -/
namespace Sys2Proof

/-- A command word (30_encoding.md R41). -/
abbrev CommandWord := BitVec 32

/-- A virtual page number in its 8-bit field (00_scope.md R6, D9). -/
abbrev Vpn := BitVec 8

/-- A physical frame number in its 8-bit field (00_scope.md R6, D9). -/
abbrev Pfn := BitVec 8

/-- A process identifier, 0 to 3 (00_scope.md R6). -/
abbrev Pid := BitVec 2

/-- A virtual address operand (30_encoding.md R43). -/
abbrev VirtAddr := BitVec 16

/-- A DEFINE operand or configuration register (10_state.md R14). -/
abbrev SizeField := BitVec 4

/-- A TLB slot index, 0 to 7 (00_scope.md R13). -/
abbrev Slot := Fin 8

/-- One physical-memory word: a number below 2^WORD_BITS (10_state.md R21). -/
abbrev MemWord := Nat

/-- The low `bits` bits of `v`: `v mod 2^bits` of 00_scope.md R10. -/
def lowBits (bits v : Nat) : Nat := v % 2 ^ bits

end Sys2Proof
end

