-- ==== Sys2Proof/Config.lean ====
section
/-! DEFINITION. The fixed constants of the core (00_scope.md R6) and its instantiation parameters (R8), which the spec
leaves open (92_eei_decisions.md D5 to D8). DESIGN CHOICE, safe (notes/assumptions/1.md): the four parameters of
the machine are constants with no body, so no proof can see a value of one. -/
namespace Sys2Proof

/-- The replacement policy (00_scope.md R8, D5). -/
inductive Policy where
  | fifo
  | lru
deriving DecidableEq, Repr, Inhabited

/-- The instantiation parameters of 00_scope.md R8, constant for the life of the core. -/
structure Params where
  /-- `POLICY`. -/
  policy : Policy
  /-- `AGE_BITS`. -/
  ageBits : Nat
  /-- `PRESENT_BITS`. -/
  presentBits : Nat
  /-- `WORD_BITS`. -/
  wordBits : Nat
deriving DecidableEq, Repr

/-- The ranges of 00_scope.md R8: each of the three widths is at least 1. -/
abbrev Params.Legal (p : Params) : Prop :=
  1 ≤ p.ageBits ∧ 1 ≤ p.presentBits ∧ 1 ≤ p.wordBits

namespace Config

/-- `VPN_FIELD`, the encoded VPN width (00_scope.md R6, D9). -/
def vpnField : Nat := 8

/-- `PFN_FIELD`, the encoded PFN width (00_scope.md R6, D9). -/
def pfnField : Nat := 8

/-- `PID_BITS` (00_scope.md R6). -/
def pidBits : Nat := 2

/-- `POLICY`: open (D5). -/
opaque policy : Policy

/-- `AGE_BITS - 1`: open (D6); AGE_BITS is at least 1. -/
opaque ageBitsPred : Nat

/-- `PRESENT_BITS - 1`: open (D7); PRESENT_BITS is at least 1. -/
opaque presentBitsPred : Nat

/-- `WORD_BITS - 1`: open (D8); WORD_BITS is at least 1. -/
opaque wordBitsPred : Nat

/-- The instantiation parameters of this machine. -/
def params : Params where
  policy := policy
  ageBits := ageBitsPred + 1
  presentBits := presentBitsPred + 1
  wordBits := wordBitsPred + 1

end Config

/-- `TLB_WORD_BITS` (00_scope.md R9). -/
def Params.tlbWordBits (p : Params) : Nat :=
  Config.vpnField + Config.pfnField + Config.pidBits + 1 + p.ageBits

/-- `PTE_WORD_BITS` (00_scope.md R9). -/
def Params.pteWordBits (p : Params) : Nat := Config.pfnField + p.presentBits + 1

end Sys2Proof
end

