-- ==== Sys2Proof/Machine/State.lean ====
section
/-! DEFINITION. The state of the core (10_state.md), its response record (30_encoding.md R48), the model's own fields
(the instantiation parameters and the command port's input), the reasons for which a step can stop, and reset. -/
namespace Sys2Proof.Machine

/-- The status codes of 30_encoding.md R49, by name. -/
inductive Status where
  | ok
  | pageNotMapped
  | configError
  | illegalCommand
  | operandRange
  | halted
  /-- The host's; the core never produces it (60_exceptions.md R93). -/
  | invalidPid
  /-- The host's; the core never produces it (60_exceptions.md R94). -/
  | invalidOperand
deriving DecidableEq, Repr

/-- How a slot was chosen, the `fill` field of 30_encoding.md R48. -/
inductive Fill where
  | none
  | reuse
  | empty
  | evict
deriving DecidableEq, Repr

/-- One TLB slot (10_state.md R18); `age` has AGE_BITS bits. -/
structure TlbEntry where
  vpn : Vpn
  pfn : Pfn
  pid : Pid
  valid : Bool
  age : Nat
deriving DecidableEq, Repr

/-- The TLB: an array of exactly 8 slots (10_state.md R18). -/
structure Tlb where
  slot0 : TlbEntry
  slot1 : TlbEntry
  slot2 : TlbEntry
  slot3 : TlbEntry
  slot4 : TlbEntry
  slot5 : TlbEntry
  slot6 : TlbEntry
  slot7 : TlbEntry
deriving DecidableEq, Repr

/-- One page-table entry (10_state.md R20); `present` has PRESENT_BITS bits. -/
structure PtEntry where
  pfn : Pfn
  present : Nat
  valid : Bool
deriving DecidableEq, Repr

/-- A sparse array: the listed (index, value) pairs, indices strictly rising, no value equal to what an unlisted index
reads as (notes/assumptions/7.md). -/
abbrev Cells (α : Type) := List (Nat × α)

/-- Physical memory: (physical address, word) pairs, any other address reading as 0 (10_state.md R21). -/
abbrev Memory := Cells MemWord

/-- The four page tables as one array (42_page_table.md R73), `PT[p][v]` at index 256 p + v. -/
abbrev PageTables := Cells PtEntry

/-- The response record (30_encoding.md R48). -/
structure Response where
  status : Status
  hit : Bool
  slotOk : Bool
  slot : Slot
  fill : Fill
  evOk : Bool
  evVpn : Vpn
  evPid : Pid
  pfn : Pfn
  pa : BitVec 16
  data : MemWord
  ew : Nat
deriving DecidableEq, Repr

/-- What the host does at the core's inputs: it presents a command word with a data word (00_scope.md R3, 30_encoding.md
R41), or it asserts the reset input (70_reset_and_hazards.md R108). -/
inductive PortEvent where
  | command (cw : CommandWord) (din : Nat)
  | reset
deriving DecidableEq, Repr

/-- The machine's state. -/
structure State where
  /-- The instantiation parameters (00_scope.md R8); no step writes them (notes/assumptions/1.md). -/
  params : Params
  /-- `configured` (10_state.md R15). -/
  configured : Bool
  /-- `halted` (10_state.md R16). -/
  halted : Bool
  /-- `halt_cause` (10_state.md R16). -/
  haltCause : BitVec 3
  /-- `cfg_off` (10_state.md R14). -/
  cfgOff : SizeField
  /-- `cfg_pfn` (10_state.md R14). -/
  cfgPfn : SizeField
  /-- `cfg_vpn` (10_state.md R14). -/
  cfgVpn : SizeField
  /-- `TLB` (10_state.md R18). -/
  tlb : Tlb
  /-- `PT` (10_state.md R20). -/
  pageTables : PageTables
  /-- `MEM` (10_state.md R21). -/
  mem : Memory
  /-- The response record of the last command answered (30_encoding.md R48). -/
  resp : Response
  /-- `din`, the data port (30_encoding.md R41). -/
  din : MemWord
  /-- What the host is going to present, first first (notes/assumptions/3.md). -/
  port : List PortEvent
deriving DecidableEq, Repr

/-- The reasons for which the MODEL stops. No run from reset reaches one. -/
inductive Fault where
  /-- Raised by LOAD and STORE when the physical address is not below 2^PA_BITS, where the spec has no word
  (10_state.md R21). By 20_memory.md R29 no run gets there. Safe (notes/assumptions/9.md). -/
  | noSuchPhysicalWord (pa : Nat)
deriving DecidableEq, Repr

/-- The reasons for which the model gives a command no meaning. -/
inductive Refusal where
  /-- Raised by an arm of exec whose instruction has no meaning yet; there is none in this model. Safe. -/
  | notModelled (mnemonic : String)
deriving DecidableEq, Repr

/-- What one step or one command answers. -/
abbrev Result := Host.Outcome State Fault Refusal

/-- A response with every field 0 (30_encoding.md R48). -/
def Response.zero : Response where
  status := .ok
  hit := false
  slotOk := false
  slot := 0
  fill := .none
  evOk := false
  evVpn := 0
  evPid := 0
  pfn := 0
  pa := 0
  data := 0
  ew := 0

/-- A TLB slot with every field 0 (45_command_port.md R86). -/
def TlbEntry.zero : TlbEntry where
  vpn := 0
  pfn := 0
  pid := 0
  valid := false
  age := 0

/-- The TLB with every field of every slot 0. -/
def Tlb.zero : Tlb where
  slot0 := .zero
  slot1 := .zero
  slot2 := .zero
  slot3 := .zero
  slot4 := .zero
  slot5 := .zero
  slot6 := .zero
  slot7 := .zero

/-- A page-table entry with every field 0 (45_command_port.md R86). -/
def PtEntry.zero : PtEntry where
  pfn := 0
  present := 0
  valid := false

/-- The core of the given parameters right after reset (70_reset_and_hazards.md R108): unconfigured and not halted.
DESIGN CHOICE, unsafe (notes/assumptions/6.md): the registers and arrays that R108 leaves unspecified are zero. -/
def State.resetWith (p : Params) : State where
  params := p
  configured := false
  halted := false
  haltCause := 0
  cfgOff := 0
  cfgPfn := 0
  cfgVpn := 0
  tlb := .zero
  pageTables := []
  mem := []
  resp := .zero
  din := 0
  port := []

/-- The machine right after reset, nothing yet on the port. -/
def State.reset : State := .resetWith Config.params

end Sys2Proof.Machine
end

