-- ==== Sys2Proof/Machine/Codec.lean ====
section
/-! DEFINITION. The Entry Codec (40_codec.md R55 to R58) over the word layouts of 30_encoding.md R52 and R53. -/
namespace Sys2Proof.Machine

/-- The single bit `b`, as a number. -/
def bit (b : Bool) : Nat := if b then 1 else 0

/-- `w[lo+width-1 : lo]` (00_scope.md R10). -/
def bitsAt (w lo width : Nat) : Nat := lowBits width (w >>> lo)

/-- `encode_tlb(e)` with A = AGE_BITS (40_codec.md R55). -/
def encodeTlb (ageBits : Nat) (e : TlbEntry) : Nat :=
  (e.vpn.toNat <<< (11 + ageBits)) ||| (e.pfn.toNat <<< (3 + ageBits)) ||| (e.pid.toNat <<< (1 + ageBits))
    ||| (bit e.valid <<< ageBits) ||| e.age

/-- `decode_tlb(w)`: field extraction, total on every word; bits above 18+A are ignored (40_codec.md R56). -/
def decodeTlb (ageBits w : Nat) : TlbEntry where
  vpn := BitVec.ofNat 8 (bitsAt w (11 + ageBits) 8)
  pfn := BitVec.ofNat 8 (bitsAt w (3 + ageBits) 8)
  pid := BitVec.ofNat 2 (bitsAt w (1 + ageBits) 2)
  valid := decide (bitsAt w ageBits 1 = 1)
  age := bitsAt w 0 ageBits

/-- `encode_pte(e)` with P = PRESENT_BITS (40_codec.md R57). -/
def encodePte (presentBits : Nat) (e : PtEntry) : Nat :=
  (e.pfn.toNat <<< (1 + presentBits)) ||| (e.present <<< 1) ||| bit e.valid

/-- `decode_pte(w)`: bits above 8+P are ignored (40_codec.md R58). -/
def decodePte (presentBits w : Nat) : PtEntry where
  pfn := BitVec.ofNat 8 (bitsAt w (1 + presentBits) 8)
  present := bitsAt w 1 presentBits
  valid := decide (bitsAt w 0 1 = 1)

end Sys2Proof.Machine
end

