-- ==== Sys2Proof/Machine/Ops.lean ====
section
/-! DEFINITION. The shared operations: sparse arrays and physical memory, the response, the checks in front of every
command (45_command_port.md R84), raising a status (60_exceptions.md R96) and the way back from a halt, reset. -/
namespace Sys2Proof.Machine

/-! ### Sparse arrays -/

/-- The value at an index; an unlisted index reads as `d`. -/
def Cells.read {α : Type} (d : α) : Cells α → Nat → α
  | [], _ => d
  | (k, v) :: rest, a => if a = k then v else Cells.read d rest a

/-- Places a listed value at its index, replacing what the index held. -/
def Cells.place {α : Type} : Cells α → Nat → α → Cells α
  | [], a, v => [(a, v)]
  | (k, w) :: rest, a, v =>
    if a < k then (a, v) :: (k, w) :: rest
    else if a = k then (a, v) :: rest
    else (k, w) :: Cells.place rest a v

/-- Writes a value at an index, keeping the canonical form: writing `d` unlists the index. -/
def Cells.write {α : Type} [DecidableEq α] (d : α) (c : Cells α) (a : Nat) (v : α) : Cells α :=
  if v = d then c.filter (fun e => decide (e.1 ≠ a)) else c.place a v

/-- The canonical form: indices strictly rising, no listed value equal to `d`. -/
abbrev Cells.wf {α : Type} [DecidableEq α] (d : α) (c : Cells α) : Prop :=
  c.Pairwise (fun e f => e.1 < f.1) ∧ ∀ e ∈ c, e.2 ≠ d

/-! ### Physical memory -/

/-- The canonical form of physical memory. -/
abbrev Memory.wf (m : Memory) : Prop := Cells.wf 0 m

/-- The number of physical words, 2^PA_BITS (10_state.md R21). -/
def State.memWords (s : State) : Nat := 2 ^ (s.cfgOff.toNat + s.cfgPfn.toNat)

/-- Whether physical memory has a word at the address. -/
def State.hasWord (s : State) (pa : Nat) : Bool := decide (pa < s.memWords)

/-- `MemRead(pa, 1)` (00_scope.md R11). -/
def State.memRead (s : State) (pa : Nat) : MemWord := Cells.read 0 s.mem pa

/-- `MemWrite(pa, 1, v)` (00_scope.md R11). -/
def State.memWrite (s : State) (pa : Nat) (v : MemWord) : State := { s with mem := Cells.write 0 s.mem pa v }

/-! ### Statuses and responses -/

/-- The codes of 30_encoding.md R49. -/
def Status.code : Status → BitVec 3
  | .ok => 0
  | .pageNotMapped => 1
  | .configError => 2
  | .illegalCommand => 3
  | .operandRange => 4
  | .halted => 5
  | .invalidPid => 6
  | .invalidOperand => 7

/-- The fatal statuses (10_state.md R16). -/
def Status.fatal : Status → Bool
  | .ok => false
  | .pageNotMapped => false
  | .configError => true
  | .illegalCommand => true
  | .operandRange => true
  | .halted => false
  | .invalidPid => false
  | .invalidOperand => false

/-- The codes of the `fill` field (30_encoding.md R48). -/
def Fill.code : Fill → BitVec 2
  | .none => 0
  | .reuse => 1
  | .empty => 2
  | .evict => 3

/-- The response whose only nonzero field is its status (45_command_port.md R87). -/
def Response.only (e : Status) : Response := { Response.zero with status := e }

/-- Returns a response record. -/
def State.answer (s : State) (r : Response) : State := { s with resp := r }

/-- `raise E` (60_exceptions.md R96), and the HALTED answer (R92): the response carries the status alone, and a fatal
status halts the core and records its code. Nothing else is written. -/
def State.raise (s : State) (e : Status) : State :=
  if e.fatal then { s with halted := true, haltCause := e.code, resp := .only e }
  else s.answer (.only e)

/-- The reset input (70_reset_and_hazards.md R108), the only way out of the halted state (60_exceptions.md R99): a new run
of the same core. What the host presents later is the host's and stays. -/
def State.restart (s : State) : State := { State.resetWith s.params with port := s.port }

/-- The checks of 45_command_port.md R84 around one command's effect, in the order of 60_exceptions.md R97: halted, the
configuration gate, the operand range. -/
def State.perform (gate inRange : Bool) (effect : State → Result) (s : State) : Result :=
  if s.halted then .next (s.raise .halted)
  else if gate = false then .next (s.raise .configError)
  else if inRange = false then .next (s.raise .operandRange)
  else effect s

end Sys2Proof.Machine
end

