-- ==== Sys2Proof/Machine/Operands.lean ====
section
/-! DEFINITION. The operand forms: the limits of DEFINE's operands, the operand ranges of 45_command_port.md R85, the split
of a virtual address (30_encoding.md R47) and the composition of a physical address (20_memory.md R28). -/
namespace Sys2Proof.Machine

/-- A DEFINE operand is 0 to 8 (00_scope.md R7, 45_command_port.md R84). -/
def sizeLegal (n : SizeField) : Bool := decide (n.toNat ≤ 8)

/-- `VPN < 2^cfg_vpn` (45_command_port.md R85). -/
def State.vpnInRange (s : State) (vpn : Vpn) : Bool := decide (vpn.toNat < 2 ^ s.cfgVpn.toNat)

/-- `PFN < 2^cfg_pfn` (45_command_port.md R85). -/
def State.pfnInRange (s : State) (pfn : Pfn) : Bool := decide (pfn.toNat < 2 ^ s.cfgPfn.toNat)

/-- `VA < 2^(cfg_vpn + cfg_off)` (45_command_port.md R85). -/
def State.vaInRange (s : State) (va : VirtAddr) : Bool :=
  decide (va.toNat < 2 ^ (s.cfgVpn.toNat + s.cfgOff.toNat))

/-- `vpn = VA >> cfg_off` (30_encoding.md R47). With VA in range and a legal configuration the page number fits its 8 bits
(notes/assumptions/10.md). -/
def State.vpnOf (s : State) (va : VirtAddr) : Vpn := BitVec.ofNat 8 (va.toNat >>> s.cfgOff.toNat)

/-- `offset = VA & ((1 << cfg_off) - 1)` (30_encoding.md R47). -/
def State.offsetOf (s : State) (va : VirtAddr) : Nat := va.toNat &&& ((1 <<< s.cfgOff.toNat) - 1)

/-- `pa = (pfn << cfg_off) | offset` (20_memory.md R28). -/
def State.physAddr (s : State) (pfn : Pfn) (offset : Nat) : Nat := (pfn.toNat <<< s.cfgOff.toNat) ||| offset

end Sys2Proof.Machine
end

