-- ==== Sys2Proof/Machine/PageTable.lean ====
section
/-! DEFINITION. The page tables (42_page_table.md R73 to R76). -/
namespace Sys2Proof.Machine

/-- The canonical form of the page tables. -/
abbrev PageTables.wf (pt : PageTables) : Prop := Cells.wf PtEntry.zero pt

/-- The index of `PT[p][v]`: linear, each table with room for its 256 entries (10_state.md R20, 42_page_table.md R73). -/
def ptIndex (pid : Pid) (vpn : Vpn) : Nat := 256 * pid.toNat + vpn.toNat

/-- `pt_lookup(pid, vpn)`: the raw entry (42_page_table.md R76). -/
def PageTables.ptLookup (pt : PageTables) (pid : Pid) (vpn : Vpn) : PtEntry :=
  Cells.read .zero pt (ptIndex pid vpn)

/-- `PT[pid][vpn] <- e`. -/
def PageTables.ptStore (pt : PageTables) (pid : Pid) (vpn : Vpn) (e : PtEntry) : PageTables :=
  Cells.write .zero pt (ptIndex pid vpn) e

/-- `pt_map(pid, vpn, pfn)`: every field is written, `present` as 0 (42_page_table.md R74, D17). -/
def PageTables.ptMap (pt : PageTables) (pid : Pid) (vpn : Vpn) (pfn : Pfn) : PageTables :=
  pt.ptStore pid vpn { pfn := pfn, present := 0, valid := true }

/-- `pt_unmap(pid, vpn)`: the valid bit alone is cleared (42_page_table.md R75). -/
def PageTables.ptUnmap (pt : PageTables) (pid : Pid) (vpn : Vpn) : PageTables :=
  pt.ptStore pid vpn { pt.ptLookup pid vpn with valid := false }

end Sys2Proof.Machine
end

