-- ==== Sys2Proof/Machine/Tlb.lean ====
section
/-! DEFINITION. The TLB and its replacement (41_tlb.md R63 to R71), as functions of the slot array and the parameters. -/
namespace Sys2Proof.Machine

/-! ### The slot array -/

/-- `TLB[s]`. -/
def Tlb.get (t : Tlb) (k : Slot) : TlbEntry :=
  match k with
  | 0 => t.slot0
  | 1 => t.slot1
  | 2 => t.slot2
  | 3 => t.slot3
  | 4 => t.slot4
  | 5 => t.slot5
  | 6 => t.slot6
  | 7 => t.slot7

/-- `TLB[s] <- e`. -/
def Tlb.set (t : Tlb) (k : Slot) (e : TlbEntry) : Tlb :=
  match k with
  | 0 => { t with slot0 := e }
  | 1 => { t with slot1 := e }
  | 2 => { t with slot2 := e }
  | 3 => { t with slot3 := e }
  | 4 => { t with slot4 := e }
  | 5 => { t with slot5 := e }
  | 6 => { t with slot6 := e }
  | 7 => { t with slot7 := e }

/-- The same change made to every slot. -/
def Tlb.map (t : Tlb) (f : TlbEntry → TlbEntry) : Tlb where
  slot0 := f t.slot0
  slot1 := f t.slot1
  slot2 := f t.slot2
  slot3 := f t.slot3
  slot4 := f t.slot4
  slot5 := f t.slot5
  slot6 := f t.slot6
  slot7 := f t.slot7

/-- The slot indices in slot-index order. -/
def slots : List Slot := [0, 1, 2, 3, 4, 5, 6, 7]

/-- `min {s | P(s)}` (00_scope.md R12). -/
def lowestSlot (p : Slot → Bool) : Option Slot := slots.find? p

/-! ### Matching (R63 to R65) -/

/-- `match(s, vpn, pid)`: the valid bit is not part of it (41_tlb.md R63). -/
def TlbEntry.tagged (e : TlbEntry) (vpn : Vpn) (pid : Pid) : Bool := e.vpn == vpn && e.pid == pid

/-- `lookup(vpn, pid)`: the lowest slot with the tag, valid or not (41_tlb.md R64). -/
def Tlb.lookup (t : Tlb) (vpn : Vpn) (pid : Pid) : Option Slot :=
  lowestSlot fun k => (t.get k).tagged vpn pid

/-- `lookup_valid(vpn, pid)`: the lowest valid slot with the tag (41_tlb.md R65). -/
def Tlb.lookupValid (t : Tlb) (vpn : Vpn) (pid : Pid) : Option Slot :=
  lowestSlot fun k => (t.get k).valid && (t.get k).tagged vpn pid

/-! ### Refill and ages (R66 to R69) -/

/-- The largest age of the eight slots. -/
def Tlb.maxAge (t : Tlb) : Nat := slots.foldl (fun m k => max m (t.get k).age) 0

/-- Step 3 of 41_tlb.md R66: the lowest slot whose age is the largest. Some slot has that age, so the default never
shows (notes/assumptions/11.md). -/
def Tlb.oldest (t : Tlb) : Slot := (lowestSlot fun k => (t.get k).age == t.maxAge).getD 0

/-- `select_refill(vpn, pid)` (41_tlb.md R66): reuse the tag's lowest slot, else the lowest invalid slot, else evict. -/
def Tlb.selectRefill (t : Tlb) (vpn : Vpn) (pid : Pid) : Slot × Fill :=
  match t.lookup vpn pid with
  | some k => (k, .reuse)
  | none =>
    match lowestSlot fun k => !(t.get k).valid with
    | some k => (k, .empty)
    | none => (t.oldest, .evict)

/-- The age after one increment: it wraps modulo 2^AGE_BITS (41_tlb.md R67, D6). -/
def nextAge (ageBits age : Nat) : Nat := lowBits ageBits (age + 1)

/-- A slot after the increment of every valid slot's age. -/
def TlbEntry.aged (ageBits : Nat) (e : TlbEntry) : TlbEntry :=
  if e.valid then { e with age := nextAge ageBits e.age } else e

/-- `age_valid()` (41_tlb.md R67). -/
def Tlb.ageValid (ageBits : Nat) (t : Tlb) : Tlb := t.map (TlbEntry.aged ageBits)

/-- What `insert` gives back: the array after it, the slot, how it was chosen, and the tag it evicted. -/
structure Inserted where
  tlb : Tlb
  slot : Slot
  fill : Fill
  victim : Option (Vpn × Pid)
deriving DecidableEq, Repr

/-- `insert(vpn, pid, pfn)` (41_tlb.md R68): the selection and the victim's tag are read before the ages rise. -/
def Tlb.insert (ageBits : Nat) (t : Tlb) (vpn : Vpn) (pid : Pid) (pfn : Pfn) : Inserted :=
  let choice := t.selectRefill vpn pid
  { tlb := (t.ageValid ageBits).set choice.1 { vpn := vpn, pfn := pfn, pid := pid, valid := true, age := 0 }
    slot := choice.1
    fill := choice.2
    victim := if choice.2 = .evict then some ((t.get choice.1).vpn, (t.get choice.1).pid) else none }

/-- `hit_touch(s)` (41_tlb.md R69): under LRU a hit ages every valid slot and then makes the hit slot the youngest. -/
def Tlb.hitTouch (p : Params) (t : Tlb) (k : Slot) : Tlb :=
  match p.policy with
  | .fifo => t
  | .lru => (t.ageValid p.ageBits).set k { (t.ageValid p.ageBits).get k with age := 0 }

/-! ### Invalidation (R71) -/

/-- `invalidate(vpn, pid)` (41_tlb.md R71): the slot it found, and the array with that slot's valid bit cleared. -/
def Tlb.invalidate (t : Tlb) (vpn : Vpn) (pid : Pid) : Option Slot × Tlb :=
  match t.lookupValid vpn pid with
  | some k => (some k, t.set k { t.get k with valid := false })
  | none => (none, t)

end Sys2Proof.Machine
end

