-- ==== Sys2Proof/Machine/Translate.lean ====
section
/-! DEFINITION. The Translator's internal functions (43_translator.md R77, R78). -/
namespace Sys2Proof.Machine

/-- What a translation finds (43_translator.md R77). -/
structure Access where
  pfn : Pfn
  hit : Bool
  slot : Slot
  fill : Fill
  victim : Option (Vpn × Pid)
deriving DecidableEq, Repr

/-- `translate`'s result: `Ok(…)` with the state after it, or `Fault(PAGE_NOT_MAPPED)`, which writes no state. -/
inductive Translation where
  | ok (a : Access) (s : State)
  | pageNotMapped
deriving DecidableEq, Repr

/-- `translate(vpn, pid)` (43_translator.md R77). -/
def State.translate (s : State) (vpn : Vpn) (pid : Pid) : Translation :=
  match s.tlb.lookupValid vpn pid with
  | some k =>
    let t := s.tlb.hitTouch s.params k
    .ok { pfn := (t.get k).pfn, hit := true, slot := k, fill := .none, victim := none } { s with tlb := t }
  | none =>
    let e := s.pageTables.ptLookup pid vpn
    if e.valid then
      let r := s.tlb.insert s.params.ageBits vpn pid e.pfn
      .ok { pfn := e.pfn, hit := false, slot := r.slot, fill := r.fill, victim := r.victim } { s with tlb := r.tlb }
    else .pageNotMapped

/-- `virtual_to_physical`'s result. -/
inductive Resolution where
  | ok (a : Access) (pa : Nat) (s : State)
  | pageNotMapped
deriving DecidableEq, Repr

/-- `virtual_to_physical(va, pid)` (43_translator.md R78). -/
def State.virtualToPhysical (s : State) (va : VirtAddr) (pid : Pid) : Resolution :=
  match s.translate (s.vpnOf va) pid with
  | .ok a t => .ok a (s.physAddr a.pfn (s.offsetOf va)) t
  | .pageNotMapped => .pageNotMapped

end Sys2Proof.Machine
end

