-- ==== Sys2Proof/Machine/Flags.lean ====
section
/-! DEFINITION. The outcome bits. The core has no flags that outlive a command (10_state.md R24); `hit`, `slot_ok`, `fill`,
`ev_*` and `status` live in the response record (30_encoding.md R48), and each command's record is built here. -/
namespace Sys2Proof.Machine

/-- Sets `ev_ok`, `ev_vpn` and `ev_pid` when an entry was evicted (43_translator.md R79). -/
def Response.withVictim (r : Response) (victim : Option (Vpn × Pid)) : Response :=
  match victim with
  | some (v, p) => { r with evOk := true, evVpn := v, evPid := p }
  | none => r

/-- Sets `slot_ok` and `slot` when there is a slot to name. -/
def Response.withSlot (r : Response) (slot : Option Slot) : Response :=
  match slot with
  | some k => { r with slotOk := true, slot := k }
  | none => r

/-- The response of a MAP (43_translator.md R79). -/
def Inserted.response (r : Inserted) (pfn : Pfn) : Response :=
  { Response.zero with slotOk := true, slot := r.slot, fill := r.fill, pfn := pfn }.withVictim r.victim

/-- The response of an UNMAP (43_translator.md R80). -/
def unmapResponse (slot : Option Slot) (pfn : Pfn) : Response :=
  { Response.zero with pfn := pfn }.withSlot slot

/-- The response of a translated access, but for LOAD's data (44_memory_access.md R81 to R83). -/
def Access.response (a : Access) (pa : Nat) : Response :=
  { Response.zero with
    hit := a.hit, slotOk := true, slot := a.slot, fill := a.fill, pfn := a.pfn
    pa := BitVec.ofNat 16 pa }.withVictim a.victim

/-- The response of an RDTLB (40_codec.md R61). -/
def tlbReadout (p : Params) (k : Slot) (e : TlbEntry) : Response :=
  { Response.zero with slotOk := true, slot := k, ew := encodeTlb p.ageBits e }

/-- The response of an RDPTE (40_codec.md R62). -/
def pteReadout (p : Params) (e : PtEntry) : Response :=
  { Response.zero with pfn := e.pfn, ew := encodePte p.presentBits e }

end Sys2Proof.Machine
end

