-- ==== Sys2Proof/Machine/Define.lean ====
section
/-! DEFINITION. DEFINE (45_command_port.md R86). -/
namespace Sys2Proof.Machine

/-- The state DEFINE establishes: the configuration, with every structure zero (45_command_port.md R86).
DESIGN CHOICE: what lies beyond the configured sizes reads as zero too (notes/assumptions/7.md, 8.md). -/
def State.established (s : State) (off pfnb vpnb : SizeField) : State :=
  { s with
    cfgOff := off, cfgPfn := pfnb, cfgVpn := vpnb
    tlb := .zero, pageTables := [], mem := []
    configured := true }

/-- DEFINE off, pfnb, vpnb: CONFIG_ERROR when already configured or when an operand exceeds 8. -/
def execDefine (off pfnb vpnb : SizeField) (s : State) : Result :=
  s.perform (!s.configured && sizeLegal off && sizeLegal pfnb && sizeLegal vpnb) true fun s =>
    .next ((s.established off pfnb vpnb).answer .zero)

end Sys2Proof.Machine
end

