-- ==== Sys2Proof/Machine/Mapping.lean ====
section
/-! DEFINITION. MAP and UNMAP (43_translator.md R79, R80). -/
namespace Sys2Proof.Machine

/-- MAP pid, vpn, pfn (43_translator.md R79): an insertion, never a hit, and the page-table write. -/
def execMap (pid : Pid) (vpn : Vpn) (pfn : Pfn) (s : State) : Result :=
  s.perform s.configured (s.vpnInRange vpn && s.pfnInRange pfn) fun s =>
    let r := s.tlb.insert s.params.ageBits vpn pid pfn
    .next ({ s with tlb := r.tlb, pageTables := s.pageTables.ptMap pid vpn pfn }.answer (r.response pfn))

/-- UNMAP pid, vpn (43_translator.md R80): the response carries the page table's pfn, now stale. -/
def execUnmap (pid : Pid) (vpn : Vpn) (s : State) : Result :=
  s.perform s.configured (s.vpnInRange vpn) fun s =>
    let h := s.tlb.invalidate vpn pid
    let pt := s.pageTables.ptUnmap pid vpn
    .next ({ s with tlb := h.2, pageTables := pt }.answer (unmapResponse h.1 (pt.ptLookup pid vpn).pfn))

end Sys2Proof.Machine
end

