-- ==== Sys2Proof/Machine/MemoryAccess.lean ====
section
/-! DEFINITION. LOAD, STORE and XLATE (44_memory_access.md R81 to R83). A LOAD or STORE at an address where memory has no
word stops the model by name; by 20_memory.md R29 no run gets there (notes/assumptions/9.md). -/
namespace Sys2Proof.Machine

/-- LOAD pid, va (44_memory_access.md R81). -/
def execLoad (pid : Pid) (va : VirtAddr) (s : State) : Result :=
  s.perform s.configured (s.vaInRange va) fun s =>
    match s.virtualToPhysical va pid with
    | .pageNotMapped => .next (s.raise .pageNotMapped)
    | .ok a pa t =>
      if t.hasWord pa then .next (t.answer { a.response pa with data := t.memRead pa })
      else .fault (.noSuchPhysicalWord pa)

/-- STORE pid, va, its word on the data port (44_memory_access.md R82). -/
def execStore (pid : Pid) (va : VirtAddr) (s : State) : Result :=
  s.perform s.configured (s.vaInRange va) fun s =>
    match s.virtualToPhysical va pid with
    | .pageNotMapped => .next (s.raise .pageNotMapped)
    | .ok a pa t =>
      if t.hasWord pa then .next ((t.memWrite pa t.din).answer (a.response pa))
      else .fault (.noSuchPhysicalWord pa)

/-- XLATE pid, va (44_memory_access.md R83): every TLB effect of a LOAD, and no memory. -/
def execXlate (pid : Pid) (va : VirtAddr) (s : State) : Result :=
  s.perform s.configured (s.vaInRange va) fun s =>
    match s.virtualToPhysical va pid with
    | .pageNotMapped => .next (s.raise .pageNotMapped)
    | .ok a pa t => .next (t.answer (a.response pa))

end Sys2Proof.Machine
end

