-- ==== Sys2Proof/Machine/Readout.lean ====
section
/-! DEFINITION. RDTLB and RDPTE (40_codec.md R61, R62): readouts that change no state but the response. -/
namespace Sys2Proof.Machine

/-- RDTLB slot (40_codec.md R61). -/
def execRdtlb (slot : Slot) (s : State) : Result :=
  s.perform s.configured true fun s => .next (s.answer (tlbReadout s.params slot (s.tlb.get slot)))

/-- RDPTE pid, vpn (40_codec.md R62). -/
def execRdpte (pid : Pid) (vpn : Vpn) (s : State) : Result :=
  s.perform s.configured (s.vpnInRange vpn) fun s =>
    .next (s.answer (pteReadout s.params (s.pageTables.ptLookup pid vpn)))

end Sys2Proof.Machine
end

