-- ==== Sys2Proof/Syntax.lean ====
section
/-! DEFINITION. The commands of the core: one constructor per row of spec/opcode_table.json, the operands at the widths
of 30_encoding.md R42 and R43. STORE's data word is no field of the command word: it stands on the data port (R41). -/
namespace Sys2Proof

/-- The commands of 30_encoding.md R44. -/
inductive Instr where
  /-- DEFINE off, pfnb, vpnb (45_command_port.md R86). -/
  | define (off pfnb vpnb : SizeField)
  /-- MAP pid, vpn, pfn (43_translator.md R79). -/
  | map (pid : Pid) (vpn : Vpn) (pfn : Pfn)
  /-- UNMAP pid, vpn (43_translator.md R80). -/
  | unmap (pid : Pid) (vpn : Vpn)
  /-- LOAD pid, va (44_memory_access.md R81). -/
  | load (pid : Pid) (va : VirtAddr)
  /-- STORE pid, va, with its word on the data port (44_memory_access.md R82). -/
  | store (pid : Pid) (va : VirtAddr)
  /-- XLATE pid, va (44_memory_access.md R83). -/
  | xlate (pid : Pid) (va : VirtAddr)
  /-- RDTLB slot (40_codec.md R61). -/
  | rdtlb (slot : Slot)
  /-- RDPTE pid, vpn (40_codec.md R62). -/
  | rdpte (pid : Pid) (vpn : Vpn)
deriving DecidableEq, Repr

end Sys2Proof
end

