-- ==== Sys2Proof/Machine/Dispatch.lean ====
section
/-! DEFINITION. exec: one arm per command, in the order of spec/opcode_table.json. -/
namespace Sys2Proof.Machine

/-- The meaning of a decoded command (45_command_port.md R84). -/
def exec (i : Instr) (s : State) : Host.Outcome State Fault Refusal :=
  match i with
  | .define off pfnb vpnb => Sys2Proof.Machine.execDefine off pfnb vpnb s
  | .map pid vpn pfn => Sys2Proof.Machine.execMap pid vpn pfn s
  | .unmap pid vpn => Sys2Proof.Machine.execUnmap pid vpn s
  | .load pid va => Sys2Proof.Machine.execLoad pid va s
  | .store pid va => Sys2Proof.Machine.execStore pid va s
  | .xlate pid va => Sys2Proof.Machine.execXlate pid va s
  | .rdtlb slot => Sys2Proof.Machine.execRdtlb slot s
  | .rdpte pid vpn => Sys2Proof.Machine.execRdpte pid vpn s

end Sys2Proof.Machine
end

