-- ==== Sys2Proof/Decode.lean ====
section
/-! DEFINITION. Decoding of command words, total on every 32-bit word (30_encoding.md R45), and the encoder, both from
the field tables of R42 and R43; and the opcode table as mask and match rows (R45's second account). -/
namespace Sys2Proof

/-- Why a word is Illegal (30_encoding.md R46), in the order of R45's checks. -/
inductive Illegal where
  /-- OP is 0x0 or 0x9 to 0xF. -/
  | reservedOpcode
  /-- RSV is not 0. -/
  | reservedField
  /-- PID is not 0 in DEFINE or RDTLB. -/
  | nonzeroPid
  /-- An operand bit that R43 marks 0 is not 0. -/
  | nonzeroOperandBits
deriving DecidableEq, Repr

/-- What a 32-bit word decodes to: a command or Illegal (30_encoding.md R45). -/
inductive Decoded where
  | command (i : Instr)
  | illegal (why : Illegal)
deriving DecidableEq, Repr

/-- The command a decoding gives, if any. -/
def Decoded.toOption : Decoded → Option Instr
  | .command i => some i
  | .illegal _ => none

/-- A command if the operand bits that must be 0 are 0, Illegal otherwise. -/
def Decoded.ifZero {n : Nat} (mustBeZero : BitVec n) (i : Instr) : Decoded :=
  if mustBeZero = 0 then .command i else .illegal .nonzeroOperandBits

/-- `OP`, bits 31:28 (30_encoding.md R42). -/
def opField (cw : CommandWord) : BitVec 4 := cw.extractLsb' 28 4

/-- `PID`, bits 27:26. -/
def pidField (cw : CommandWord) : Pid := cw.extractLsb' 26 2

/-- `RSV`, bits 25:16. -/
def rsvField (cw : CommandWord) : BitVec 10 := cw.extractLsb' 16 10

/-- `VPN`, bits 15:8 (30_encoding.md R43). -/
def vpnOperand (cw : CommandWord) : Vpn := cw.extractLsb' 8 8

/-- `PFN`, bits 7:0. -/
def pfnOperand (cw : CommandWord) : Pfn := cw.extractLsb' 0 8

/-- `VA`, bits 15:0. -/
def vaOperand (cw : CommandWord) : VirtAddr := cw.extractLsb' 0 16

/-- The fields of the opcode's layout, once OP and RSV are known to be legal (30_encoding.md R43, R45). -/
def decodeOperands (cw : CommandWord) : Decoded :=
  match (opField cw).toNat with
  | 1 =>
    if pidField cw ≠ 0 then .illegal .nonzeroPid
    else .ifZero (cw.extractLsb' 12 4)
      (.define (cw.extractLsb' 8 4) (cw.extractLsb' 4 4) (cw.extractLsb' 0 4))
  | 2 => .command (.map (pidField cw) (vpnOperand cw) (pfnOperand cw))
  | 3 => .ifZero (cw.extractLsb' 0 8) (.unmap (pidField cw) (vpnOperand cw))
  | 4 => .command (.load (pidField cw) (vaOperand cw))
  | 5 => .command (.store (pidField cw) (vaOperand cw))
  | 6 => .command (.xlate (pidField cw) (vaOperand cw))
  | 7 =>
    if pidField cw ≠ 0 then .illegal .nonzeroPid
    else .ifZero (cw.extractLsb' 3 13) (.rdtlb (cw.extractLsb' 0 3).toFin)
  | 8 => .ifZero (cw.extractLsb' 0 8) (.rdpte (pidField cw) (vpnOperand cw))
  | _ => .illegal .reservedOpcode

/-- `decode(cw)` of 30_encoding.md R45. -/
def decode (cw : CommandWord) : Decoded :=
  if (opField cw).toNat = 0 ∨ 8 < (opField cw).toNat then .illegal .reservedOpcode
  else if rsvField cw ≠ 0 then .illegal .reservedField
  else decodeOperands cw

/-- A command word from its fields (30_encoding.md R42): OP, PID, RSV = 0, OPND. -/
def commandWord (op : BitVec 4) (pid : Pid) (opnd : BitVec 16) : CommandWord :=
  op ++ pid ++ (0 : BitVec 10) ++ opnd

/-- The command word of a command (30_encoding.md R43, R44, R50). -/
def encode : Instr → CommandWord
  | .define off pfnb vpnb => commandWord 0x1 0 ((0 : BitVec 4) ++ off ++ pfnb ++ vpnb)
  | .map pid vpn pfn => commandWord 0x2 pid (vpn ++ pfn)
  | .unmap pid vpn => commandWord 0x3 pid (vpn ++ (0 : BitVec 8))
  | .load pid va => commandWord 0x4 pid va
  | .store pid va => commandWord 0x5 pid va
  | .xlate pid va => commandWord 0x6 pid va
  | .rdtlb slot => commandWord 0x7 0 ((0 : BitVec 13) ++ (BitVec.ofFin slot : BitVec 3))
  | .rdpte pid vpn => commandWord 0x8 pid (vpn ++ (0 : BitVec 8))

/-- A row of the opcode table: a word belongs to it iff its masked bits are the row's match (30_encoding.md R45). -/
structure OpcodeRow where
  mask : CommandWord
  pattern : CommandWord
deriving DecidableEq, Repr

/-- Whether a word matches a row. -/
def OpcodeRow.holds (r : OpcodeRow) (cw : CommandWord) : Bool := cw &&& r.mask == r.pattern

/-- The rows of spec/opcode_table.json, in its order. -/
def opcodeTable : List OpcodeRow :=
  [ ⟨0xFFFFF000, 0x10000000⟩,   -- DEFINE
    ⟨0xF3FF0000, 0x20000000⟩,   -- MAP
    ⟨0xF3FF00FF, 0x30000000⟩,   -- UNMAP
    ⟨0xF3FF0000, 0x40000000⟩,   -- LOAD
    ⟨0xF3FF0000, 0x50000000⟩,   -- STORE
    ⟨0xF3FF0000, 0x60000000⟩,   -- XLATE
    ⟨0xFFFFFFF8, 0x70000000⟩,   -- RDTLB
    ⟨0xF3FF00FF, 0x80000000⟩ ]  -- RDPTE

/-- The row of the table that a command stands for. -/
def Instr.row : Instr → OpcodeRow
  | .define _ _ _ => ⟨0xFFFFF000, 0x10000000⟩
  | .map _ _ _ => ⟨0xF3FF0000, 0x20000000⟩
  | .unmap _ _ => ⟨0xF3FF00FF, 0x30000000⟩
  | .load _ _ => ⟨0xF3FF0000, 0x40000000⟩
  | .store _ _ => ⟨0xF3FF0000, 0x50000000⟩
  | .xlate _ _ => ⟨0xF3FF0000, 0x60000000⟩
  | .rdtlb _ => ⟨0xFFFFFFF8, 0x70000000⟩
  | .rdpte _ _ => ⟨0xF3FF00FF, 0x80000000⟩

/-- The 32-bit command word of an instruction given as `nbits` bits, every bit above them 0. -/
def tableWord (nbits w : Nat) : CommandWord := BitVec.ofNat 32 (lowBits nbits w)

/-- The command that the decoder reads from an instruction whose bits are `w`; every command is one 32-bit word
(30_encoding.md R41), so there is no byte order to lay out. -/
def decodeTableWord (nbits w : Nat) : Option Instr := (decode (tableWord nbits w)).toOption

end Sys2Proof
end

