-- ==== Sys2Proof/Machine/Port.lean ====
section
/-! DEFINITION. The command port (45_command_port.md R84, first half): what the core does with what the host presents, up to
the point where a command has been decoded. -/
namespace Sys2Proof.Machine

/-- The command word is taken off the port and its data word stands on `din`, WORD_BITS wide (30_encoding.md R41). -/
def State.latch (s : State) (din : Nat) (rest : List PortEvent) : State :=
  { s with din := lowBits s.params.wordBits din, port := rest }

/-- What is left to do with a presented input: nothing more, or a decoded command to perform. -/
inductive Accepted where
  | done (s : State)
  | perform (i : Instr) (s : State)
deriving DecidableEq, Repr

/-- A command word is answered HALTED undecoded while the core is halted (60_exceptions.md R92), and ILLEGAL_COMMAND if it
does not decode (R90). -/
def State.acceptCommand (s : State) (cw : CommandWord) : Accepted :=
  if s.halted then .done (s.raise .halted)
  else
    match decode cw with
    | .illegal _ => .done (s.raise .illegalCommand)
    | .command i => .perform i s

/-- The core's reaction to its inputs: idle with nothing presented (60_exceptions.md R107), a new run at the reset input
(70_reset_and_hazards.md R108), or a command. -/
def State.accept (s : State) : Accepted :=
  match s.port with
  | [] => .done s
  | .reset :: rest => .done { s with port := rest }.restart
  | .command cw din :: rest => (s.latch din rest).acceptCommand cw

/-- The host presents a command word and a data word before anything else it is going to present. -/
def State.present (s : State) (cw : CommandWord) (din : Nat) : State :=
  { s with port := .command cw din :: s.port }

end Sys2Proof.Machine
end

