-- ==== Sys2Proof/Machine/Step.lean ====
section
/-! DEFINITION. One step of the machine: one input of the host, handled in full (45_command_port.md R84, 20_memory.md R35). -/
namespace Sys2Proof.Machine

/-- One step. -/
def step (s : State) : Host.Outcome State Fault Refusal :=
  match s.accept with
  | .done t => .next t
  | .perform i t => exec i t

/-- The state with the given instruction presented on the command port (data word 0), so that the next step runs it. -/
def State.withFetchWord (s : State) (nbits w : Nat) : State := s.present (tableWord nbits w) 0

end Sys2Proof.Machine
end

