-- ==== Sys2Proof/Machine/Assembler.lean ====
section
/-! DEFINITION. Assembler syntax (30_encoding.md R50) and the expansion of the source's trace lines (R51), from a line's
mnemonic and its operands as numbers. Reading a line's characters, and turning a literal into a number, is the host's
(00_scope.md R5, 92_eei_decisions.md D28; notes/assumptions/15.md). -/
namespace Sys2Proof.Machine

/-- An operand in its field, if it fits. -/
def operand (width n : Nat) : Option (BitVec width) :=
  if n < 2 ^ width then some (BitVec.ofNat width n) else none

/-- The host's presentation of a command; `din` is read only by STORE (45_command_port.md R84). -/
def presents (din : Nat) (i : Instr) : PortEvent := .command (encode i) din

/-- A canonical command line (30_encoding.md R50). STORE's data goes on the data port; DESIGN CHOICE: every other line puts the
data word 0 there, for which the spec names no word (notes/assumptions/15.md). -/
def assemble (mnemonic : String) (operands : List Nat) : Option PortEvent :=
  match mnemonic, operands with
  | "DEFINE", [off, pfnb, vpnb] => do
    return presents 0 (.define (← operand 4 off) (← operand 4 pfnb) (← operand 4 vpnb))
  | "MAP", [pid, vpn, pfn] => do
    return presents 0 (.map (← operand 2 pid) (← operand 8 vpn) (← operand 8 pfn))
  | "UNMAP", [pid, vpn] => do
    return presents 0 (.unmap (← operand 2 pid) (← operand 8 vpn))
  | "LOAD", [pid, va] => do
    return presents 0 (.load (← operand 2 pid) (← operand 16 va))
  | "STORE", [pid, va, data] => do
    return presents data (.store (← operand 2 pid) (← operand 16 va))
  | "XLATE", [pid, va] => do
    return presents 0 (.xlate (← operand 2 pid) (← operand 16 va))
  | "RDTLB", [slot] => do
    return presents 0 (.rdtlb (← operand 3 slot).toFin)
  | "RDPTE", [pid, vpn] => do
    return presents 0 (.rdpte (← operand 2 pid) (← operand 8 vpn))
  | _, _ => none

/-- The lines of the source's trace language (30_encoding.md R51). A store's value is the word the host takes from a
register or an immediate (D28). -/
inductive TraceLine where
  | define (offsetBits pfnBits vpnBits : Nat)
  | ctxswitch (pid : Nat)
  | map (vpn pfn : Nat)
  | unmap (vpn : Nat)
  | loadAddress (address : Nat)
  | loadImmediate (imm : Nat)
  | store (address value : Nat)
  | arithmetic
deriving DecidableEq, Repr

/-- What a trace line puts on the command port, with the host's `current_pid` (30_encoding.md R51); `ctxswitch`, a load of an
immediate and register arithmetic send no command. The data word of a line other than a store is `assemble`'s 0
(notes/assumptions/15.md). -/
def TraceLine.expand (currentPid : Pid) : TraceLine → Option PortEvent
  | .define off pfnb vpnb => assemble "DEFINE" [off, pfnb, vpnb]
  | .ctxswitch _ => none
  | .map vpn pfn => assemble "MAP" [currentPid.toNat, vpn, pfn]
  | .unmap vpn => assemble "UNMAP" [currentPid.toNat, vpn]
  | .loadAddress address => assemble "LOAD" [currentPid.toNat, address]
  | .loadImmediate _ => none
  | .store address value => assemble "STORE" [currentPid.toNat, address, value]
  | .arithmetic => none

end Sys2Proof.Machine
end

