-- ==== Sys2Proof/WellFormed.lean ====
section
/-! DEFINITION. The operand limits that a command carries whatever the state. Every field width is already in the
operand types, so the limits of DEFINE are the only ones: each of its operands is 0 to 8 (00_scope.md R7, D11). A
DEFINE beyond them decodes and is refused with CONFIG_ERROR (45_command_port.md R84), so decoding and encoding do not
ask for well-formedness. Limits that depend on the configuration are 45_command_port.md R85, in Machine/Operands.lean. -/
namespace Sys2Proof

/-- The state-independent operand limits of a command. -/
def Instr.wellFormed : Instr → Bool
  | .define off pfnb vpnb => decide (off.toNat ≤ 8) && decide (pfnb.toNat ≤ 8) && decide (vpnb.toNat ≤ 8)
  | .map _ _ _ => true
  | .unmap _ _ => true
  | .load _ _ => true
  | .store _ _ => true
  | .xlate _ _ => true
  | .rdtlb _ => true
  | .rdpte _ _ => true

end Sys2Proof
end

