-- ==== Sys2Proof/Safety.lean ====
section
/-! DEFINITION. What holds in every state of a run: the widths of 10_state.md, the canonical forms of the sparse arrays, the
record of a halt (R16), and the properties of 41_tlb.md R72 that are kept from step to step. -/
namespace Sys2Proof.Machine

/-- The configuration registers hold 0 to 8 (10_state.md R14). -/
abbrev State.ConfigLegal (s : State) : Prop :=
  s.cfgOff.toNat ≤ 8 ∧ s.cfgPfn.toNat ≤ 8 ∧ s.cfgVpn.toNat ≤ 8

/-- `halt_cause` is 0 until a fatal status halts the core, and then that status's code (10_state.md R16). -/
abbrev State.HaltRecorded (s : State) : Prop :=
  (s.halted = false → s.haltCause = 0) ∧ (s.halted = true → s.haltCause = 2 ∨ s.haltCause = 3 ∨ s.haltCause = 4)

/-- Every slot holds a vpn below 2^cfg_vpn, a pfn below 2^cfg_pfn and an age of AGE_BITS bits (10_state.md R18). -/
abbrev State.TlbFits (s : State) : Prop :=
  ∀ k : Slot, (s.tlb.get k).vpn.toNat < 2 ^ s.cfgVpn.toNat ∧ (s.tlb.get k).pfn.toNat < 2 ^ s.cfgPfn.toNat ∧
    (s.tlb.get k).age < 2 ^ s.params.ageBits

/-- The page tables are canonical and have no entry beyond 2^cfg_vpn, and every entry's pfn is below 2^cfg_pfn and its
`present` has PRESENT_BITS bits (10_state.md R20). -/
abbrev State.PageTablesFit (s : State) : Prop :=
  PageTables.wf s.pageTables ∧
    ∀ e ∈ s.pageTables, e.1 < 1024 ∧ e.1 % 256 < 2 ^ s.cfgVpn.toNat ∧ e.2.pfn.toNat < 2 ^ s.cfgPfn.toNat ∧
      e.2.present < 2 ^ s.params.presentBits

/-- Memory is canonical, has no word beyond 2^PA_BITS, and every word has WORD_BITS bits (10_state.md R21). -/
abbrev State.MemoryFits (s : State) : Prop :=
  Memory.wf s.mem ∧ ∀ e ∈ s.mem, e.1 < s.memWords ∧ e.2 < 2 ^ s.params.wordBits

/-- The data port, `resp.data` and `resp.ew` are within their widths (30_encoding.md R41, R48). -/
abbrev State.PortsFit (s : State) : Prop :=
  s.din < 2 ^ s.params.wordBits ∧ s.resp.data < 2 ^ s.params.wordBits ∧
    s.resp.ew < 2 ^ max s.params.tlbWordBits s.params.pteWordBits

/-- Two slots carry one tag. -/
abbrev TlbEntry.SameTag (e f : TlbEntry) : Prop := e.vpn = f.vpn ∧ e.pid = f.pid

/-- I2 of 41_tlb.md R72: a valid slot is the lowest-indexed slot carrying its tag. -/
abbrev State.ValidSlotsLowest (s : State) : Prop :=
  ∀ j k : Slot, (s.tlb.get k).valid = true → (s.tlb.get j).SameTag (s.tlb.get k) → k ≤ j

/-- I3 of 41_tlb.md R72: a valid slot agrees with the page-table entry of its tag. -/
abbrev State.TlbAgreesWithPageTables (s : State) : Prop :=
  ∀ k : Slot, (s.tlb.get k).valid = true →
    (s.pageTables.ptLookup (s.tlb.get k).pid (s.tlb.get k).vpn).valid = true ∧
      (s.pageTables.ptLookup (s.tlb.get k).pid (s.tlb.get k).vpn).pfn = (s.tlb.get k).pfn

/-- I6 of 41_tlb.md R72, slot by slot: if the page-table entry of a slot's tag is valid, some valid slot carries the tag. -/
abbrev State.MappedTagsLive (s : State) : Prop :=
  ∀ k : Slot, (s.pageTables.ptLookup (s.tlb.get k).pid (s.tlb.get k).vpn).valid = true →
    ∃ j : Slot, (s.tlb.get j).valid = true ∧ (s.tlb.get j).SameTag (s.tlb.get k)

/-- The invariant of the machine. -/
abbrev State.Inv (s : State) : Prop :=
  s.params.Legal ∧ s.ConfigLegal ∧ s.HaltRecorded ∧ s.TlbFits ∧ s.PageTablesFit ∧ s.MemoryFits ∧ s.PortsFit ∧
    s.ValidSlotsLowest ∧ s.TlbAgreesWithPageTables ∧ s.MappedTagsLive

/-- The core is configured and not halted: it performs commands (70_reset_and_hazards.md R111). -/
abbrev State.Ready (s : State) : Prop := s.halted = false ∧ s.configured = true

/-- The configuration gate of 45_command_port.md R84: DEFINE with operands 0 to 8 opens an unconfigured core, and every
other command needs a configured one. -/
def State.gateOpen (s : State) : Instr → Bool
  | .define off pfnb vpnb => !s.configured && Instr.wellFormed (.define off pfnb vpnb)
  | .map _ _ _ => s.configured
  | .unmap _ _ => s.configured
  | .load _ _ => s.configured
  | .store _ _ => s.configured
  | .xlate _ _ => s.configured
  | .rdtlb _ => s.configured
  | .rdpte _ _ => s.configured

/-- `in_range(c)` of 45_command_port.md R85. -/
def State.operandsInRange (s : State) : Instr → Bool
  | .define _ _ _ => true
  | .map _ vpn pfn => decide (vpn.toNat < 2 ^ s.cfgVpn.toNat ∧ pfn.toNat < 2 ^ s.cfgPfn.toNat)
  | .unmap _ vpn => decide (vpn.toNat < 2 ^ s.cfgVpn.toNat)
  | .load _ va => decide (va.toNat < 2 ^ (s.cfgVpn.toNat + s.cfgOff.toNat))
  | .store _ va => decide (va.toNat < 2 ^ (s.cfgVpn.toNat + s.cfgOff.toNat))
  | .xlate _ va => decide (va.toNat < 2 ^ (s.cfgVpn.toNat + s.cfgOff.toNat))
  | .rdtlb _ => true
  | .rdpte _ vpn => decide (vpn.toNat < 2 ^ s.cfgVpn.toNat)

/-- No two valid slots carry one tag (10_state.md R19, I1 of 41_tlb.md R72). -/
abbrev State.OneValidSlotPerTag (s : State) : Prop :=
  ∀ j k : Slot, (s.tlb.get j).valid = true → (s.tlb.get k).valid = true →
    (s.tlb.get j).SameTag (s.tlb.get k) → j = k

/-- The ages of the valid slots are pairwise distinct (I4 of 41_tlb.md R72). -/
abbrev State.AgesDistinct (s : State) : Prop :=
  ∀ j k : Slot, (s.tlb.get j).valid = true → (s.tlb.get k).valid = true →
    (s.tlb.get j).age = (s.tlb.get k).age → j = k

/-- Two unconfigured cores that differ at most in what 70_reset_and_hazards.md R108 leaves unspecified: the configuration
registers, the TLB, the page tables and memory. -/
abbrev State.SameButUnspecified (s t : State) : Prop :=
  s.configured = false ∧
    t = { s with cfgOff := t.cfgOff, cfgPfn := t.cfgPfn, cfgVpn := t.cfgVpn, tlb := t.tlb
                 pageTables := t.pageTables, mem := t.mem }

/-- The same core with another replacement policy (00_scope.md R8). -/
def State.withPolicy (p : Policy) (s : State) : State := { s with params := { s.params with policy := p } }

/-- The next input is a STORE that the step from `s` to `t` performs at physical address `a`. -/
def StoresTo (s t : State) (a : Nat) : Prop :=
  ∃ cw din rest pid va, s.port = .command cw din :: rest ∧ decode cw = .command (.store pid va) ∧
    t.resp.status = .ok ∧ t.resp.pa.toNat = a

/-- What a hit on slot `k` leaves in the TLB: under FIFO everything as it was; under LRU the slot at age 0 and every other
valid slot one age older (41_tlb.md R69). -/
def HitBookkeeping (s t : State) (k : Slot) : Prop :=
  (s.params.policy = .fifo → t.tlb = s.tlb) ∧
  (s.params.policy = .lru → ∀ j : Slot, t.tlb.get j =
    if j = k then { s.tlb.get k with age := 0 }
    else if (s.tlb.get j).valid then
      { s.tlb.get j with age := ((s.tlb.get j).age + 1) % 2 ^ s.params.ageBits }
    else s.tlb.get j)

/-- Which slot an insertion of a tag that no slot carries takes, and what it evicts, by steps 2 and 3 of 41_tlb.md R66 on the
ages before the increment: the lowest invalid slot; else the lowest slot of the largest age, whose tag is the victim. -/
def RefillsFreeOrOldest (s : State) (r : Response) : Prop :=
  ((∃ j : Slot, (s.tlb.get j).valid = false) →
    r.fill = .empty ∧ r.evOk = false ∧ r.evVpn = 0 ∧ r.evPid = 0 ∧ (s.tlb.get r.slot).valid = false ∧
      ∀ j : Slot, (s.tlb.get j).valid = false → r.slot ≤ j) ∧
  ((∀ j : Slot, (s.tlb.get j).valid = true) →
    r.fill = .evict ∧ r.evOk = true ∧ r.evVpn = (s.tlb.get r.slot).vpn ∧ r.evPid = (s.tlb.get r.slot).pid ∧
      (∀ j : Slot, (s.tlb.get j).age ≤ (s.tlb.get r.slot).age) ∧
      ∀ j : Slot, j < r.slot → (s.tlb.get j).age < (s.tlb.get r.slot).age)

/-- The physical address of a virtual address in a frame (43_translator.md R78). -/
def composedAddress (s : State) (pfn : Pfn) (va : VirtAddr) : Nat :=
  (pfn.toNat <<< s.cfgOff.toNat) ||| (va.toNat &&& ((1 <<< s.cfgOff.toNat) - 1))

end Sys2Proof.Machine
end

