-- ==== Sys2Proof/Certificates/Slice0/Obligations.lean ====
section
/-! DEFINITION. The statements for the provers. Each docstring names the rules of spec/ it formalises, and the entries of
notes/assumptions/ where it rests on a choice of the model. -/

open Sys2Proof Sys2Proof.Machine

/-! ### The port and the step -/

/-- A command word on the port that decodes to a command: the step is that command's meaning, with the word taken off the
port and its data word on `din`, WORD_BITS wide (45_command_port.md R84; the port is entries 3 and 4). -/
def Obligations.StepRunsDecodedCommand : Prop :=
  ∀ (s : State) (cw : CommandWord) (d : Nat) (rest : List PortEvent) (i : Instr),
    s.port = .command cw d :: rest → decode cw = .command i →
      step s = exec i { s with din := d % 2 ^ s.params.wordBits, port := rest }

/-- A word that does not decode halts a core that is not halted, with cause 3, and writes nothing else but the port
(60_exceptions.md R90; that the word leaves the port and its data word stands on `din`, modulo 2^WORD_BITS, is the model's
choice, entries 3 and 4). -/
def Obligations.IllegalWordHaltsCore : Prop :=
  ∀ (s : State) (cw : CommandWord) (d : Nat) (rest : List PortEvent) (why : Illegal),
    s.halted = false → s.port = .command cw d :: rest → decode cw = .illegal why →
      step s = .next { s with
        halted := true, haltCause := 3, resp := { Response.zero with status := .illegalCommand }
        din := d % 2 ^ s.params.wordBits, port := rest }

/-- Idle with nothing presented, the core keeps all state (60_exceptions.md R107; an idle step is entry 3). -/
def Obligations.IdleCoreKeepsState : Prop :=
  ∀ s : State, s.port = [] → step s = .next s

/-- While halted, every command word, decodable or not, is answered HALTED and writes no state of the core (60_exceptions.md
R92; that the word leaves the port, and that its data word stands on `din` while the core is halted too, is the model's
choice, entries 3 and 4). -/
def Obligations.HaltedCoreAnswersHalted : Prop :=
  (∀ (s : State) (cw : CommandWord) (d : Nat) (rest : List PortEvent),
    s.halted = true → s.port = .command cw d :: rest →
      step s = .next { s with
        resp := { Response.zero with status := .halted }, din := d % 2 ^ s.params.wordBits, port := rest }) ∧
  ∀ (i : Instr) (s : State), s.halted = true →
    exec i s = .next { s with resp := { Response.zero with status := .halted } }

/-- Only the reset input leaves the halted state, and nothing else changes `halt_cause` while halted (60_exceptions.md R99). -/
def Obligations.OnlyResetLeavesHaltedState : Prop :=
  ∀ s t : State, s.halted = true → step s = .next t →
    (t.halted = true ∧ t.haltCause = s.haltCause) ∨ ∃ rest, s.port = .reset :: rest

/-- Reset leaves the core unconfigured and not halted with cause 0, and what reset leaves unspecified cannot be observed: two
unconfigured cores that differ only there make the same step, and stay so or become equal (70_reset_and_hazards.md R108;
the model's reset values are entry 6; that reset leaves the rest of the port as it is, and that the parameters ride in
State and stay, is the model's choice, entries 3 and 1). -/
def Obligations.UnspecifiedResetStateUnobservable : Prop :=
  (∀ (s : State) (rest : List PortEvent), s.port = .reset :: rest →
    ∃ t, step s = .next t ∧ t.configured = false ∧ t.halted = false ∧ t.haltCause = 0 ∧
      t.params = s.params ∧ t.port = rest) ∧
  ∀ s t : State, s.SameButUnspecified t →
    ∃ s' t', step s = .next s' ∧ step t = .next t' ∧ (s' = t' ∨ s'.SameButUnspecified t')

/-! ### Encoding -/

/-- The words of 95_test_vectors.md decode to the commands they are given for, and a reserved bit makes one illegal
(30_encoding.md R42, R43, R50). -/
def Obligations.VectorWordsDecode : Prop :=
  decode 0x10000122 = .command (.define 1 2 2) ∧
  decode 0x24000302 = .command (.map 1 3 2) ∧
  decode 0x34000300 = .command (.unmap 1 3) ∧
  decode 0x44000007 = .command (.load 1 7) ∧
  decode 0x54000007 = .command (.store 1 7) ∧
  decode 0x640000AB = .command (.xlate 1 0xAB) ∧
  decode 0x70000007 = .command (.rdtlb 7) ∧
  decode 0x8C00FF00 = .command (.rdpte 3 255) ∧
  decode 0x70000008 = .illegal .nonzeroOperandBits

/-- A word that decodes carries the opcode and every operand in the bits that R42 and R43 name, and 0 in every other bit
(30_encoding.md R42, R43, R44). -/
def Obligations.WordsCarryFieldsInPlace : Prop :=
  ∀ (cw : CommandWord) (i : Instr), decode cw = .command i →
    cw.toNat = match i with
      | .define off pfnb vpnb => 1 * 2 ^ 28 + off.toNat * 2 ^ 8 + pfnb.toNat * 2 ^ 4 + vpnb.toNat
      | .map pid vpn pfn => 2 * 2 ^ 28 + pid.toNat * 2 ^ 26 + vpn.toNat * 2 ^ 8 + pfn.toNat
      | .unmap pid vpn => 3 * 2 ^ 28 + pid.toNat * 2 ^ 26 + vpn.toNat * 2 ^ 8
      | .load pid va => 4 * 2 ^ 28 + pid.toNat * 2 ^ 26 + va.toNat
      | .store pid va => 5 * 2 ^ 28 + pid.toNat * 2 ^ 26 + va.toNat
      | .xlate pid va => 6 * 2 ^ 28 + pid.toNat * 2 ^ 26 + va.toNat
      | .rdtlb slot => 7 * 2 ^ 28 + slot.val
      | .rdpte pid vpn => 8 * 2 ^ 28 + pid.toNat * 2 ^ 26 + vpn.toNat * 2 ^ 8

/-- Decoding an encoded command gives it back, for every command with every operand (30_encoding.md R43, R45). -/
def Obligations.DecodeOfEncode : Prop :=
  ∀ i : Instr, decode (encode i) = .command i

/-- Decoding by R45: a word is illegal exactly when one of its checks fails; a word that decodes is the encoding of its
command; a word decodes exactly when it matches a row of the opcode table, which is its command's row, and it matches at
most one row (30_encoding.md R45). -/
def Obligations.DecoderFollowsTable : Prop :=
  (∀ cw : CommandWord, (∃ why, decode cw = .illegal why) ↔
    ((cw.extractLsb' 28 4).toNat = 0 ∨ 8 < (cw.extractLsb' 28 4).toNat) ∨
    cw.extractLsb' 16 10 ≠ 0#10 ∨
    (((cw.extractLsb' 28 4).toNat = 1 ∨ (cw.extractLsb' 28 4).toNat = 7) ∧ cw.extractLsb' 26 2 ≠ 0#2) ∨
    ((cw.extractLsb' 28 4).toNat = 1 ∧ cw.extractLsb' 12 4 ≠ 0#4) ∨
    (((cw.extractLsb' 28 4).toNat = 3 ∨ (cw.extractLsb' 28 4).toNat = 8) ∧ cw.extractLsb' 0 8 ≠ 0#8) ∨
    ((cw.extractLsb' 28 4).toNat = 7 ∧ cw.extractLsb' 3 13 ≠ 0#13)) ∧
  (∀ (cw : CommandWord) (i : Instr), decode cw = .command i → encode i = cw ∧ i.row.holds cw = true) ∧
  (∀ cw : CommandWord, (∃ i, decode cw = .command i) ↔ ∃ r ∈ opcodeTable, r.holds cw = true) ∧
  ∀ (cw : CommandWord), ∀ r ∈ opcodeTable, ∀ r' ∈ opcodeTable, r.holds cw = true → r'.holds cw = true → r = r'

/-- Each canonical command line with its operands assembles to a command word that decodes to the command it names, STORE's
data going on the data port (30_encoding.md R50; that every other line puts the data word 0 there is the model's choice, and
so is where reading the line's text ends, entry 15). -/
def Obligations.AssembledLinesDecode : Prop :=
  ∀ (off pfnb vpnb : SizeField) (pid : Pid) (vpn : Vpn) (pfn : Pfn) (va : VirtAddr) (data : Nat) (slot : Slot),
    (∃ cw, assemble "DEFINE" [off.toNat, pfnb.toNat, vpnb.toNat] = some (.command cw 0) ∧
      decode cw = .command (.define off pfnb vpnb)) ∧
    (∃ cw, assemble "MAP" [pid.toNat, vpn.toNat, pfn.toNat] = some (.command cw 0) ∧
      decode cw = .command (.map pid vpn pfn)) ∧
    (∃ cw, assemble "UNMAP" [pid.toNat, vpn.toNat] = some (.command cw 0) ∧
      decode cw = .command (.unmap pid vpn)) ∧
    (∃ cw, assemble "LOAD" [pid.toNat, va.toNat] = some (.command cw 0) ∧
      decode cw = .command (.load pid va)) ∧
    (∃ cw, assemble "STORE" [pid.toNat, va.toNat, data] = some (.command cw data) ∧
      decode cw = .command (.store pid va)) ∧
    (∃ cw, assemble "XLATE" [pid.toNat, va.toNat] = some (.command cw 0) ∧
      decode cw = .command (.xlate pid va)) ∧
    (∃ cw, assemble "RDTLB" [slot.val] = some (.command cw 0) ∧
      decode cw = .command (.rdtlb slot)) ∧
    ∃ cw, assemble "RDPTE" [pid.toNat, vpn.toNat] = some (.command cw 0) ∧
      decode cw = .command (.rdpte pid vpn)

/-- An entry word carries its fields most significant first with no padding, at the places and widths of R52 and R53
(30_encoding.md R52, R53, 40_codec.md R55, R57). -/
def Obligations.EntryWordsFollowLayout : Prop :=
  (∀ (a : Nat) (e : TlbEntry), e.age < 2 ^ a →
    encodeTlb a e = e.vpn.toNat * 2 ^ (11 + a) + e.pfn.toNat * 2 ^ (3 + a) + e.pid.toNat * 2 ^ (1 + a) +
      (if e.valid then 1 else 0) * 2 ^ a + e.age ∧ encodeTlb a e < 2 ^ (19 + a)) ∧
  ∀ (p : Nat) (e : PtEntry), e.present < 2 ^ p →
    encodePte p e = e.pfn.toNat * 2 ^ (1 + p) + e.present * 2 + (if e.valid then 1 else 0) ∧
      encodePte p e < 2 ^ (9 + p)

/-- The codec is lossless both ways and its encoders are injective, on entries whose fields lie within their widths
(40_codec.md R59). -/
def Obligations.EntryCodecIsLossless : Prop :=
  (∀ (a : Nat) (e : TlbEntry), e.age < 2 ^ a → decodeTlb a (encodeTlb a e) = e) ∧
  (∀ (p : Nat) (e : PtEntry), e.present < 2 ^ p → decodePte p (encodePte p e) = e) ∧
  (∀ a w : Nat, encodeTlb a (decodeTlb a w) = w % 2 ^ (19 + a)) ∧
  (∀ p w : Nat, encodePte p (decodePte p w) = w % 2 ^ (9 + p)) ∧
  (∀ (a : Nat) (e f : TlbEntry), e.age < 2 ^ a → f.age < 2 ^ a → encodeTlb a e = encodeTlb a f → e = f) ∧
  ∀ (p : Nat) (e f : PtEntry), e.present < 2 ^ p → f.present < 2 ^ p → encodePte p e = encodePte p f → e = f

/-- An entry word has no bit above its width, and a decoder ignores such bits (30_encoding.md R54). -/
def Obligations.EntryWordsFitTheirWidth : Prop :=
  (∀ (a : Nat) (e : TlbEntry), e.age < 2 ^ a → encodeTlb a e < 2 ^ (19 + a)) ∧
  (∀ (p : Nat) (e : PtEntry), e.present < 2 ^ p → encodePte p e < 2 ^ (9 + p)) ∧
  (∀ a w : Nat, decodeTlb a w = decodeTlb a (w % 2 ^ (19 + a))) ∧
  ∀ p w : Nat, decodePte p w = decodePte p (w % 2 ^ (9 + p))

/-! ### Refusals -/

/-- CONFIG_ERROR: a command other than DEFINE before DEFINE, a DEFINE after DEFINE, and a DEFINE with an operand above 8 halt
the core with cause 2 and write nothing else (60_exceptions.md R89). -/
def Obligations.ConfigurationErrorsHaltCore : Prop :=
  ∀ s : State, s.halted = false →
    (s.configured = false → ∀ i : Instr, (∀ off pfnb vpnb, i ≠ .define off pfnb vpnb) →
      exec i s = .next { s with
        halted := true, haltCause := 2, resp := { Response.zero with status := .configError } }) ∧
    (s.configured = true → ∀ off pfnb vpnb : SizeField,
      exec (.define off pfnb vpnb) s = .next { s with
        halted := true, haltCause := 2, resp := { Response.zero with status := .configError } }) ∧
    (∀ off pfnb vpnb : SizeField, 8 < off.toNat ∨ 8 < pfnb.toNat ∨ 8 < vpnb.toNat →
      exec (.define off pfnb vpnb) s = .next { s with
        halted := true, haltCause := 2, resp := { Response.zero with status := .configError } })

/-- OPERAND_RANGE: a VPN, PFN or VA beyond the configuration halts a configured core with cause 4 and writes nothing else
(45_command_port.md R85, 60_exceptions.md R91). -/
def Obligations.OperandRangeErrorsHaltCore : Prop :=
  ∀ s : State, s.Ready → ∀ pid : Pid,
    (∀ (vpn : Vpn) (pfn : Pfn), 2 ^ s.cfgVpn.toNat ≤ vpn.toNat ∨ 2 ^ s.cfgPfn.toNat ≤ pfn.toNat →
      exec (.map pid vpn pfn) s = .next { s with
        halted := true, haltCause := 4, resp := { Response.zero with status := .operandRange } }) ∧
    (∀ (vpn : Vpn) (i : Instr), 2 ^ s.cfgVpn.toNat ≤ vpn.toNat → i = .unmap pid vpn ∨ i = .rdpte pid vpn →
      exec i s = .next { s with
        halted := true, haltCause := 4, resp := { Response.zero with status := .operandRange } }) ∧
    (∀ (va : VirtAddr) (i : Instr), 2 ^ (s.cfgVpn.toNat + s.cfgOff.toNat) ≤ va.toNat →
      i = .load pid va ∨ i = .store pid va ∨ i = .xlate pid va →
      exec i s = .next { s with
        halted := true, haltCause := 4, resp := { Response.zero with status := .operandRange } })

/-- The status of an answered command word is the first that applies in R97's order; one that passes every check answers OK
or PAGE_NOT_MAPPED (60_exceptions.md R97). -/
def Obligations.FirstFailedCheckDecidesStatus : Prop :=
  ∀ (s t : State) (cw : CommandWord) (d : Nat) (rest : List PortEvent),
    s.port = .command cw d :: rest → step s = .next t →
    if s.halted then t.resp.status = .halted
    else match decode cw with
      | .illegal _ => t.resp.status = .illegalCommand
      | .command i =>
        if s.gateOpen i = false then t.resp.status = .configError
        else if s.operandsInRange i = false then t.resp.status = .operandRange
        else t.resp.status = .ok ∨ t.resp.status = .pageNotMapped

/-- A command that ends in a non-OK status returns the status alone (45_command_port.md R87). -/
def Obligations.RefusedCommandsReportStatusOnly : Prop :=
  ∀ (s t : State) (cw : CommandWord) (d : Nat) (rest : List PortEvent),
    s.port = .command cw d :: rest → step s = .next t → t.resp.status ≠ .ok →
      t.resp = { Response.zero with status := t.resp.status }

/-- Faults are precise: a command that ends in a non-OK status answers the status alone, writes no TLB, page-table, memory or
configuration state, and writes the halt registers only if the status is fatal (60_exceptions.md R96; that the word leaves the port is the model's choice, entry 3). -/
def Obligations.FaultsArePrecise : Prop :=
  ∀ (s t : State) (cw : CommandWord) (d : Nat) (rest : List PortEvent),
    s.port = .command cw d :: rest → step s = .next t → t.resp.status ≠ .ok →
      t = { s with
        halted := t.halted, haltCause := t.haltCause, resp := { Response.zero with status := t.resp.status }
        din := t.din, port := rest } ∧
      (t.resp.status = .configError ∨ t.resp.status = .illegalCommand ∨ t.resp.status = .operandRange →
        t.halted = true ∧ t.haltCause = t.resp.status.code) ∧
      (t.resp.status = .pageNotMapped ∨ t.resp.status = .halted →
        t.halted = s.halted ∧ t.haltCause = s.haltCause)

/-- The core never produces the two statuses that belong to the host (60_exceptions.md R93, R94). -/
def Obligations.HostStatusesNeverProduced : Prop :=
  ∀ (s t : State) (cw : CommandWord) (d : Nat) (rest : List PortEvent),
    s.port = .command cw d :: rest → step s = .next t →
      t.resp.status ≠ .invalidPid ∧ t.resp.status ≠ .invalidOperand

/-! ### DEFINE, MAP, UNMAP -/

/-- DEFINE on an unconfigured core: the state of R110, answered OK (70_reset_and_hazards.md R110, 45_command_port.md R86,
30_encoding.md R48). The spec gives the zeros for v below 2^vpnb and a below 2^(off+pfnb); that the entries and words beyond
read as zero too is the model's choice, entries 8 and 7. -/
def Obligations.DefineEstablishesZeroState : Prop :=
  ∀ (s : State) (off pfnb vpnb : SizeField), s.HaltRecorded → s.halted = false → s.configured = false →
    off.toNat ≤ 8 → pfnb.toNat ≤ 8 → vpnb.toNat ≤ 8 →
    ∃ t, exec (.define off pfnb vpnb) s = .next t ∧
      t.configured = true ∧ t.halted = false ∧ t.haltCause = 0 ∧
      t.cfgOff = off ∧ t.cfgPfn = pfnb ∧ t.cfgVpn = vpnb ∧
      (∀ k : Slot, t.tlb.get k = { vpn := 0, pfn := 0, pid := 0, valid := false, age := 0 }) ∧
      (∀ (p : Pid) (v : Vpn), t.pageTables.ptLookup p v = { pfn := 0, present := 0, valid := false }) ∧
      (∀ a : Nat, t.memRead a = 0) ∧
      t.resp = Response.zero ∧ t.params = s.params ∧ t.din = s.din ∧ t.port = s.port

/-- MAP with operands in range: the slot it reports holds the mapping with age 0, every other valid slot is one age older,
the page-table entry is written with `present` 0, every other entry keeps its value, the response is R79's, and nothing
else changes (43_translator.md R79, 41_tlb.md R67, R68, 42_page_table.md R74). -/
def Obligations.MapInstallsMapping : Prop :=
  ∀ (s : State) (pid : Pid) (vpn : Vpn) (pfn : Pfn), s.Ready →
    vpn.toNat < 2 ^ s.cfgVpn.toNat → pfn.toNat < 2 ^ s.cfgPfn.toNat →
    ∃ t, exec (.map pid vpn pfn) s = .next t ∧
      t = { s with tlb := t.tlb, pageTables := t.pageTables, resp := t.resp } ∧
      t.tlb.get t.resp.slot = { vpn := vpn, pfn := pfn, pid := pid, valid := true, age := 0 } ∧
      (∀ j : Slot, j ≠ t.resp.slot → t.tlb.get j =
        if (s.tlb.get j).valid then
          { s.tlb.get j with age := ((s.tlb.get j).age + 1) % 2 ^ s.params.ageBits }
        else s.tlb.get j) ∧
      (∀ (q : Pid) (v : Vpn), t.pageTables.ptLookup q v =
        if q = pid ∧ v = vpn then { pfn := pfn, present := 0, valid := true } else s.pageTables.ptLookup q v) ∧
      t.resp = { Response.zero with
        slotOk := true, slot := t.resp.slot, fill := t.resp.fill, pfn := pfn
        evOk := t.resp.evOk, evVpn := t.resp.evVpn, evPid := t.resp.evPid }

/-- The slot a MAP writes, by R66's three steps on the ages before the increment: the lowest slot with the tag; else the
lowest invalid slot; else the slot of the largest age, the lowest of those, whose tag is reported as evicted
(41_tlb.md R66, 30_encoding.md R48). -/
def Obligations.MapChoosesRefillSlot : Prop :=
  ∀ (s : State) (pid : Pid) (vpn : Vpn) (pfn : Pfn), s.Ready →
    vpn.toNat < 2 ^ s.cfgVpn.toNat → pfn.toNat < 2 ^ s.cfgPfn.toNat →
    ∃ t, exec (.map pid vpn pfn) s = .next t ∧
      ((∃ j : Slot, (s.tlb.get j).vpn = vpn ∧ (s.tlb.get j).pid = pid) →
        t.resp.fill = .reuse ∧ t.resp.evOk = false ∧ t.resp.evVpn = 0 ∧ t.resp.evPid = 0 ∧
        ((s.tlb.get t.resp.slot).vpn = vpn ∧ (s.tlb.get t.resp.slot).pid = pid) ∧
        ∀ j : Slot, (s.tlb.get j).vpn = vpn → (s.tlb.get j).pid = pid → t.resp.slot ≤ j) ∧
      ((∀ j : Slot, ¬((s.tlb.get j).vpn = vpn ∧ (s.tlb.get j).pid = pid)) → RefillsFreeOrOldest s t.resp)

/-- UNMAP with its VPN in range: the valid bit of the lowest valid slot with the tag and of the page-table entry are cleared,
every other slot and entry and every age keeps its value, and the response is R80's (43_translator.md R80, 41_tlb.md R71,
42_page_table.md R75). -/
def Obligations.UnmapClearsMapping : Prop :=
  ∀ (s : State) (pid : Pid) (vpn : Vpn), s.Ready → vpn.toNat < 2 ^ s.cfgVpn.toNat →
    ∃ t, exec (.unmap pid vpn) s = .next t ∧
      t = { s with tlb := t.tlb, pageTables := t.pageTables, resp := t.resp } ∧
      (∀ (q : Pid) (v : Vpn), t.pageTables.ptLookup q v =
        if q = pid ∧ v = vpn then { s.pageTables.ptLookup pid vpn with valid := false }
        else s.pageTables.ptLookup q v) ∧
      ((∀ j : Slot, ¬((s.tlb.get j).valid = true ∧ (s.tlb.get j).vpn = vpn ∧ (s.tlb.get j).pid = pid)) →
        t.tlb = s.tlb ∧ t.resp = { Response.zero with pfn := (s.pageTables.ptLookup pid vpn).pfn }) ∧
      ∀ k : Slot, (s.tlb.get k).valid = true → (s.tlb.get k).vpn = vpn → (s.tlb.get k).pid = pid →
        (∀ j : Slot, (s.tlb.get j).valid = true → (s.tlb.get j).vpn = vpn → (s.tlb.get j).pid = pid → k ≤ j) →
        t.resp = { Response.zero with slotOk := true, slot := k, pfn := (s.pageTables.ptLookup pid vpn).pfn } ∧
        ∀ j : Slot, t.tlb.get j = if j = k then { s.tlb.get k with valid := false } else s.tlb.get j

/-- UNMAP of a page with no live mapping is OK and a no-op: it changes nothing but the response, which carries the stale pfn
(60_exceptions.md R95, 43_translator.md R80). -/
def Obligations.UnmapWithoutMappingIsNoOp : Prop :=
  ∀ (s : State) (pid : Pid) (vpn : Vpn), s.Inv → s.Ready → vpn.toNat < 2 ^ s.cfgVpn.toNat →
    (s.pageTables.ptLookup pid vpn).valid = false →
      exec (.unmap pid vpn) s =
        .next { s with resp := { Response.zero with pfn := (s.pageTables.ptLookup pid vpn).pfn } }

/-! ### Translation and memory -/

/-- LOAD of a page that a valid slot maps: the response is R81's hit with the word at the composed address, the TLB has the
hit's bookkeeping, and nothing else changes (44_memory_access.md R81). -/
def Obligations.LoadHitReadsWord : Prop :=
  ∀ (s : State) (pid : Pid) (va : VirtAddr) (k : Slot), s.Inv → s.Ready →
    va.toNat < 2 ^ (s.cfgVpn.toNat + s.cfgOff.toNat) →
    (s.tlb.get k).valid = true → (s.tlb.get k).vpn.toNat = va.toNat >>> s.cfgOff.toNat → (s.tlb.get k).pid = pid →
    ∃ t, exec (.load pid va) s = .next t ∧
      t = { s with tlb := t.tlb, resp := t.resp } ∧ HitBookkeeping s t k ∧
      t.resp = { Response.zero with
        hit := true, slotOk := true, slot := k, pfn := (s.tlb.get k).pfn
        pa := BitVec.ofNat 16 (composedAddress s (s.tlb.get k).pfn va)
        data := s.memRead (composedAddress s (s.tlb.get k).pfn va) }

/-- STORE to a page that a valid slot maps: the word at the composed address becomes `din`, every other word keeps its
value, the response is R82's hit, and the rest is as for LOAD (44_memory_access.md R82). -/
def Obligations.StoreHitWritesWord : Prop :=
  ∀ (s : State) (pid : Pid) (va : VirtAddr) (k : Slot), s.Inv → s.Ready →
    va.toNat < 2 ^ (s.cfgVpn.toNat + s.cfgOff.toNat) →
    (s.tlb.get k).valid = true → (s.tlb.get k).vpn.toNat = va.toNat >>> s.cfgOff.toNat → (s.tlb.get k).pid = pid →
    ∃ t, exec (.store pid va) s = .next t ∧
      t = { s with tlb := t.tlb, mem := t.mem, resp := t.resp } ∧ HitBookkeeping s t k ∧
      (∀ a : Nat, t.memRead a = if a = composedAddress s (s.tlb.get k).pfn va then s.din else s.memRead a) ∧
      t.resp = { Response.zero with
        hit := true, slotOk := true, slot := k, pfn := (s.tlb.get k).pfn
        pa := BitVec.ofNat 16 (composedAddress s (s.tlb.get k).pfn va) }

/-- XLATE of a page that a valid slot maps: the response is R83's hit and memory is untouched (44_memory_access.md R83). -/
def Obligations.XlateHitTranslates : Prop :=
  ∀ (s : State) (pid : Pid) (va : VirtAddr) (k : Slot), s.Inv → s.Ready →
    va.toNat < 2 ^ (s.cfgVpn.toNat + s.cfgOff.toNat) →
    (s.tlb.get k).valid = true → (s.tlb.get k).vpn.toNat = va.toNat >>> s.cfgOff.toNat → (s.tlb.get k).pid = pid →
    ∃ t, exec (.xlate pid va) s = .next t ∧
      t = { s with tlb := t.tlb, resp := t.resp } ∧ HitBookkeeping s t k ∧
      t.resp = { Response.zero with
        hit := true, slotOk := true, slot := k, pfn := (s.tlb.get k).pfn
        pa := BitVec.ofNat 16 (composedAddress s (s.tlb.get k).pfn va) }

/-- LOAD, STORE and XLATE of a page that no valid slot maps and the page table does: the mapping is inserted at age 0 in the
reported slot, which is the lowest invalid one or else the oldest (EMPTY or EVICT, never REUSE), every other valid slot is one
age older, and the response and memory are those of a hit but for `hit` (43_translator.md R77, 41_tlb.md R66, R68 and I6 of
R72). -/
def Obligations.MissRefillsFromPageTable : Prop :=
  ∀ (s : State) (pid : Pid) (va : VirtAddr) (vpn : Vpn) (i : Instr), s.Inv → s.Ready →
    va.toNat < 2 ^ (s.cfgVpn.toNat + s.cfgOff.toNat) → vpn.toNat = va.toNat >>> s.cfgOff.toNat →
    (∀ j : Slot, ¬((s.tlb.get j).valid = true ∧ (s.tlb.get j).vpn = vpn ∧ (s.tlb.get j).pid = pid)) →
    (s.pageTables.ptLookup pid vpn).valid = true →
    i = .load pid va ∨ i = .store pid va ∨ i = .xlate pid va →
    ∃ t, exec i s = .next t ∧
      t = { s with tlb := t.tlb, mem := t.mem, resp := t.resp } ∧
      t.tlb.get t.resp.slot =
        { vpn := vpn, pfn := (s.pageTables.ptLookup pid vpn).pfn, pid := pid, valid := true, age := 0 } ∧
      (∀ j : Slot, j ≠ t.resp.slot → t.tlb.get j =
        if (s.tlb.get j).valid then
          { s.tlb.get j with age := ((s.tlb.get j).age + 1) % 2 ^ s.params.ageBits }
        else s.tlb.get j) ∧
      (∀ a : Nat, t.memRead a =
        if i = .store pid va ∧ a = composedAddress s (s.pageTables.ptLookup pid vpn).pfn va then s.din
        else s.memRead a) ∧
      RefillsFreeOrOldest s t.resp ∧
      t.resp = { Response.zero with
        slotOk := true, slot := t.resp.slot, fill := t.resp.fill, pfn := (s.pageTables.ptLookup pid vpn).pfn
        evOk := t.resp.evOk, evVpn := t.resp.evVpn, evPid := t.resp.evPid
        pa := BitVec.ofNat 16 (composedAddress s (s.pageTables.ptLookup pid vpn).pfn va)
        data := if i = .load pid va then s.memRead (composedAddress s (s.pageTables.ptLookup pid vpn).pfn va)
                else 0 }

/-- LOAD, STORE and XLATE of a page that neither a valid slot nor the page table maps answer PAGE_NOT_MAPPED, write no state
and do not halt (60_exceptions.md R88, 43_translator.md R77). -/
def Obligations.UnmappedAccessAnswersPageNotMapped : Prop :=
  ∀ (s : State) (pid : Pid) (va : VirtAddr) (vpn : Vpn) (i : Instr), s.Ready →
    va.toNat < 2 ^ (s.cfgVpn.toNat + s.cfgOff.toNat) → vpn.toNat = va.toNat >>> s.cfgOff.toNat →
    (∀ j : Slot, ¬((s.tlb.get j).valid = true ∧ (s.tlb.get j).vpn = vpn ∧ (s.tlb.get j).pid = pid)) →
    (s.pageTables.ptLookup pid vpn).valid = false →
    i = .load pid va ∨ i = .store pid va ∨ i = .xlate pid va →
    exec i s = .next { s with resp := { Response.zero with status := .pageNotMapped } }

/-- In a state that no run reaches, whose slot names a frame outside memory, LOAD and STORE stop the model by name (the
model's choice, entry 9; 20_memory.md R29 says that the core makes no check). -/
def Obligations.AccessOutsideMemoryStops : Prop :=
  ∀ (s : State) (pid : Pid) (va : VirtAddr) (k : Slot) (i : Instr), s.Ready →
    va.toNat < 2 ^ (s.cfgVpn.toNat + s.cfgOff.toNat) →
    (s.tlb.get k).valid = true → (s.tlb.get k).vpn.toNat = va.toNat >>> s.cfgOff.toNat → (s.tlb.get k).pid = pid →
    (∀ j : Slot, (s.tlb.get j).valid = true → (s.tlb.get j).vpn = (s.tlb.get k).vpn →
      (s.tlb.get j).pid = pid → k ≤ j) →
    2 ^ (s.cfgOff.toNat + s.cfgPfn.toNat) ≤ composedAddress s (s.tlb.get k).pfn va →
    i = .load pid va ∨ i = .store pid va →
    exec i s = .fault (.noSuchPhysicalWord (composedAddress s (s.tlb.get k).pfn va))

/-- Every physical address an access answers with lies inside physical memory and is composed of the answered frame and
the offset (20_memory.md R28, R29). -/
def Obligations.PhysicalAddressesLieInMemory : Prop :=
  ∀ (s t : State) (pid : Pid) (va : VirtAddr) (i : Instr), s.Inv →
    i = .load pid va ∨ i = .store pid va ∨ i = .xlate pid va →
    exec i s = .next t → t.resp.status = .ok →
      t.resp.pa.toNat = composedAddress s t.resp.pfn va ∧
        t.resp.pa.toNat < 2 ^ (s.cfgOff.toNat + s.cfgPfn.toNat)

/-- A LOAD that resolves to the physical address of the STORE just performed, through whichever page and process, returns
the word stored (20_memory.md R36). -/
def Obligations.LoadAfterStoreReturnsWord : Prop :=
  ∀ (s t u : State) (pid pid' : Pid) (va va' : VirtAddr), s.ConfigLegal →
    exec (.store pid va) s = .next t → t.resp.status = .ok →
    exec (.load pid' va') t = .next u → u.resp.status = .ok → u.resp.pa = t.resp.pa →
      u.resp.data = s.din

/-- A memory word keeps its value over any number of steps in which no reset is taken and no STORE is performed at its
address (20_memory.md R36; a run is a run of the port's inputs, entry 3). -/
def Obligations.WordKeptUntilStored : Prop :=
  ∀ (n : Nat) (s t : State) (a : Nat), s.Inv → s.configured = true →
    Sys2Proof.core.run n s = .next t →
    (∀ k, k < n → ∀ u v : State, Sys2Proof.core.run k s = .next u → step u = .next v →
      (∀ rest, u.port ≠ .reset :: rest) ∧ ¬StoresTo u v a) →
    t.memRead a = s.memRead a

/-- A translation sees the MAP before it: XLATE and LOAD of any address of the page just mapped hit the slot MAP reported,
with its frame (70_reset_and_hazards.md R114, 43_translator.md R79). -/
def Obligations.AccessAfterMapHits : Prop :=
  ∀ (s t : State) (pid : Pid) (vpn : Vpn) (pfn : Pfn) (va : VirtAddr),
    exec (.map pid vpn pfn) s = .next t → t.resp.status = .ok → va.toNat >>> s.cfgOff.toNat = vpn.toNat →
    ∃ u v, exec (.xlate pid va) t = .next u ∧ exec (.load pid va) t = .next v ∧
      u.resp = { Response.zero with
        hit := true, slotOk := true, slot := t.resp.slot, pfn := pfn
        pa := BitVec.ofNat 16 (composedAddress s pfn va) } ∧
      v.resp = { u.resp with data := s.memRead (composedAddress s pfn va) }

/-- A translation sees the UNMAP before it: any access to the page just unmapped answers PAGE_NOT_MAPPED and writes no
state (70_reset_and_hazards.md R114, 60_exceptions.md R88). -/
def Obligations.AccessAfterUnmapNotMapped : Prop :=
  ∀ (s t : State) (pid : Pid) (vpn : Vpn) (va : VirtAddr) (i : Instr), s.Inv →
    exec (.unmap pid vpn) s = .next t → t.resp.status = .ok → va.toNat >>> s.cfgOff.toNat = vpn.toNat →
    i = .load pid va ∨ i = .store pid va ∨ i = .xlate pid va →
    exec i t = .next { t with resp := { Response.zero with status := .pageNotMapped } }

/-- XLATE has every effect of LOAD but the word read (44_memory_access.md R83). -/
def Obligations.XlateIsLoadWithoutData : Prop :=
  ∀ (s t : State) (pid : Pid) (va : VirtAddr), exec (.load pid va) s = .next t →
    exec (.xlate pid va) s = .next { t with resp := { t.resp with data := 0 } }

/-! ### Readouts -/

/-- RDTLB answers the slot's encoded word, which decodes to the slot, and changes nothing but the response
(40_codec.md R61). -/
def Obligations.RdtlbReadsSlot : Prop :=
  ∀ (s : State) (k : Slot), s.Ready → (s.tlb.get k).age < 2 ^ s.params.ageBits →
    ∃ t, exec (.rdtlb k) s = .next t ∧ t = { s with resp := t.resp } ∧
      t.resp = { Response.zero with slotOk := true, slot := k, ew := encodeTlb s.params.ageBits (s.tlb.get k) } ∧
      decodeTlb s.params.ageBits t.resp.ew = s.tlb.get k

/-- RDPTE answers the entry's encoded word, which decodes to the entry, and its pfn, and changes nothing but the response
(40_codec.md R62). -/
def Obligations.RdpteReadsEntry : Prop :=
  ∀ (s : State) (pid : Pid) (vpn : Vpn), s.Ready → vpn.toNat < 2 ^ s.cfgVpn.toNat →
    (s.pageTables.ptLookup pid vpn).present < 2 ^ s.params.presentBits →
    ∃ t, exec (.rdpte pid vpn) s = .next t ∧ t = { s with resp := t.resp } ∧
      t.resp = { Response.zero with
        pfn := (s.pageTables.ptLookup pid vpn).pfn
        ew := encodePte s.params.presentBits (s.pageTables.ptLookup pid vpn) } ∧
      decodePte s.params.presentBits t.resp.ew = s.pageTables.ptLookup pid vpn

/-! ### Whole-machine rules -/

/-- The configuration is written only by a DEFINE that succeeds, and cleared only by reset (10_state.md R14, R15). -/
def Obligations.OnlyDefineWritesConfiguration : Prop :=
  ∀ (s t : State) (cw : CommandWord) (d : Nat) (rest : List PortEvent),
    s.port = .command cw d :: rest → step s = .next t →
      (t.configured = s.configured ∧ t.cfgOff = s.cfgOff ∧ t.cfgPfn = s.cfgPfn ∧ t.cfgVpn = s.cfgVpn) ∨
      (s.configured = false ∧ t.configured = true ∧
        decode cw = .command (.define t.cfgOff t.cfgPfn t.cfgVpn) ∧
        t.cfgOff.toNat ≤ 8 ∧ t.cfgPfn.toNat ≤ 8 ∧ t.cfgVpn.toNat ≤ 8)

/-- Memory is written only by STORE and DEFINE, the page tables only by MAP, UNMAP and DEFINE, and the TLB by no readout and
no command that is refused; the parameters by nothing (10_state.md R17, 20_memory.md R30, 40_codec.md R61, R62). -/
def Obligations.StructuresHaveOnlyTheirWriters : Prop :=
  ∀ (s t : State) (i : Instr), exec i s = .next t →
    t.params = s.params ∧
    (t.mem = s.mem ∨ (∃ pid va, i = .store pid va) ∨ ∃ off pfnb vpnb, i = .define off pfnb vpnb) ∧
    (t.pageTables = s.pageTables ∨ (∃ pid vpn pfn, i = .map pid vpn pfn) ∨ (∃ pid vpn, i = .unmap pid vpn) ∨
      ∃ off pfnb vpnb, i = .define off pfnb vpnb) ∧
    ((∃ k, i = .rdtlb k) ∨ (∃ pid vpn, i = .rdpte pid vpn) ∨ t.resp.status ≠ .ok → t.tlb = s.tlb)

/-- A per-process command leaves every other process's page table as it was, evictions included (20_memory.md R27,
43_translator.md R79). -/
def Obligations.OtherProcessesKeepPageTables : Prop :=
  ∀ (s t : State) (i : Instr) (pid q : Pid) (v : Vpn), exec i s = .next t → q ≠ pid →
    ((∃ vpn pfn, i = .map pid vpn pfn) ∨ (∃ vpn, i = .unmap pid vpn) ∨ (∃ va, i = .load pid va) ∨
      (∃ va, i = .store pid va) ∨ (∃ va, i = .xlate pid va) ∨ ∃ vpn, i = .rdpte pid vpn) →
    t.pageTables.ptLookup q v = s.pageTables.ptLookup q v

/-- FIFO and LRU give identical states and responses over any run with no hit: they differ only in the bookkeeping of a
hit (41_tlb.md R70; a run is a run of the port's inputs, entry 3). -/
def Obligations.PoliciesAgreeWithoutHits : Prop :=
  ∀ (n : Nat) (s : State),
    (∀ k, k ≤ n → ∀ u : State, Sys2Proof.core.run k (s.withPolicy .fifo) = .next u → 0 < k → u.resp.hit = false) →
    ∀ t : State, Sys2Proof.core.run n (s.withPolicy .fifo) = .next t →
      Sys2Proof.core.run n (s.withPolicy .lru) = .next (t.withPolicy .lru)

/-! ### Invariants -/

/-- The reset state has the invariant (70_reset_and_hazards.md R108; its zeros are entry 6). -/
def Obligations.ResetStateHasInvariant : Prop := State.reset.Inv

/-- Every step keeps the invariant: legal widths and configuration, the halt record, fields within their widths, canonical
memory and page tables, and I2, I3 and I6 of 41_tlb.md R72. -/
def Obligations.StepKeepsInvariant : Prop :=
  ∀ s t : State, s.Inv → step s = .next t → t.Inv

/-- From a state with the invariant the machine always goes on: no step faults or is refused (20_memory.md R29). -/
def Obligations.InvariantStatesNeverStop : Prop :=
  ∀ s : State, s.Inv → ∃ t, step s = .next t

/-- After every command at most one valid slot has a given tag (10_state.md R19). -/
def Obligations.StepKeepsOneValidSlotPerTag : Prop :=
  ∀ s t : State, s.Inv → step s = .next t → t.OneValidSlotPerTag

/-- A step from distinct ages of the valid slots, none of them about to wrap, leaves distinct ages (I4 of 41_tlb.md R72). -/
def Obligations.AgesStayDistinctUntilWrap : Prop :=
  ∀ s t : State, s.AgesDistinct → (∀ k : Slot, (s.tlb.get k).valid = true → (s.tlb.get k).age + 1 < 2 ^ s.params.ageBits) →
    step s = .next t → t.AgesDistinct
end

