-- ==== Sys2Proof/Laws/Cells.lean ====
section
/-! SUPPORT. Sparse arrays: read after write, and the canonical form, which every write keeps; then the same for physical
memory and the page tables. -/
namespace Sys2Proof.Machine

variable {α : Type}

@[simp] theorem Cells.read_nil (d : α) (a : Nat) : Cells.read d ([] : Cells α) a = d := rfl

theorem Cells.read_cons (d : α) (k : Nat) (v : α) (rest : Cells α) (a : Nat) :
    Cells.read d ((k, v) :: rest) a = if a = k then v else Cells.read d rest a := rfl

theorem Cells.read_place (d : α) (c : Cells α) (a b : Nat) (v : α) :
    Cells.read d (c.place a v) b = if b = a then v else Cells.read d c b := by
  induction c with
  | nil => rfl
  | cons e rest ih =>
    obtain ⟨k, w⟩ := e
    simp only [Cells.place]
    split
    · rw [Cells.read_cons]
    · split
      · subst_vars
        simp only [Cells.read_cons]
        split <;> rfl
      · simp only [Cells.read_cons, ih]
        by_cases hb : b = k <;> by_cases ha : b = a <;> simp_all

theorem Cells.read_filter (d : α) (c : Cells α) (a b : Nat) :
    Cells.read d (c.filter fun e => decide (e.1 ≠ a)) b = if b = a then d else Cells.read d c b := by
  induction c with
  | nil => simp
  | cons e rest ih =>
    obtain ⟨k, w⟩ := e
    by_cases hk : k = a
    · subst hk
      simp only [List.filter_cons, ne_eq, not_true_eq_false, decide_false, Bool.false_eq_true,
        if_false, Cells.read_cons]
      rw [ih]
      split <;> rfl
    · simp only [List.filter_cons, ne_eq, hk, not_false_eq_true, decide_true, if_true,
        Cells.read_cons, ih]
      by_cases hb : b = k <;> by_cases ha : b = a <;> simp_all

/-- Reading after a write: the written index holds the value, every other index what it held. -/
theorem Cells.read_write [DecidableEq α] (d : α) (c : Cells α) (a b : Nat) (v : α) :
    Cells.read d (Cells.write d c a v) b = if b = a then v else Cells.read d c b := by
  unfold Cells.write
  split
  · subst_vars
    exact Cells.read_filter _ c a b
  · exact Cells.read_place d c a b v

theorem Cells.mem_place {c : Cells α} {a : Nat} {v : α} {e : Nat × α} (h : e ∈ c.place a v) :
    e = (a, v) ∨ e ∈ c := by
  induction c with
  | nil => simpa [Cells.place] using h
  | cons f rest ih =>
    obtain ⟨k, w⟩ := f
    simp only [Cells.place] at h
    split at h
    · simpa using h
    · split at h
      · rcases List.mem_cons.1 h with h | h
        · exact .inl h
        · exact .inr (List.mem_cons_of_mem _ h)
      · rcases List.mem_cons.1 h with h | h
        · exact .inr (h ▸ List.mem_cons_self)
        · exact (ih h).imp_right (List.mem_cons_of_mem _)

/-- Every cell after a write is the written one or was there before. -/
theorem Cells.mem_write [DecidableEq α] {d : α} {c : Cells α} {a : Nat} {v : α} {e : Nat × α}
    (h : e ∈ Cells.write d c a v) : e = (a, v) ∨ e ∈ c := by
  unfold Cells.write at h
  split at h
  · exact .inr (List.mem_filter.1 h).1
  · exact Cells.mem_place h

theorem Cells.pairwise_place {c : Cells α} (a : Nat) (v : α)
    (h : c.Pairwise fun e f => e.1 < f.1) : (c.place a v).Pairwise fun e f => e.1 < f.1 := by
  induction c with
  | nil => simp [Cells.place]
  | cons e rest ih =>
    obtain ⟨k, w⟩ := e
    obtain ⟨h1, h2⟩ := List.pairwise_cons.1 h
    simp only [Cells.place]
    split
    · rename_i hak
      refine List.pairwise_cons.2 ⟨fun f hf => ?_, h⟩
      rcases List.mem_cons.1 hf with rfl | hf
      · exact hak
      · exact hak.trans (h1 f hf)
    · split
      · subst_vars
        exact List.pairwise_cons.2 ⟨h1, h2⟩
      · refine List.pairwise_cons.2 ⟨fun f hf => ?_, ih h2⟩
        rcases Cells.mem_place hf with rfl | hf
        · simp only
          omega
        · exact h1 f hf

/-- A write keeps the canonical form. -/
theorem Cells.write_wf [DecidableEq α] {d : α} {c : Cells α} (a : Nat) (v : α)
    (h : Cells.wf d c) : Cells.wf d (Cells.write d c a v) := by
  refine ⟨?_, fun e he => ?_⟩
  · unfold Cells.write
    split
    · exact h.1.filter _
    · exact Cells.pairwise_place a v h.1
  · unfold Cells.write at he
    split at he
    · exact h.2 e (List.mem_filter.1 he).1
    · rcases Cells.mem_place he with rfl | he
      · assumption
      · exact h.2 e he

theorem Cells.wf_nil [DecidableEq α] (d : α) : Cells.wf d ([] : Cells α) :=
  ⟨List.Pairwise.nil, by simp⟩

theorem Cells.read_of_lt_head [DecidableEq α] {d : α} {c : Cells α} {a : Nat}
    (h : ∀ e ∈ c, a < e.1) : Cells.read d c a = d := by
  induction c with
  | nil => rfl
  | cons e rest ih =>
    obtain ⟨k, w⟩ := e
    have hk : a < k := h (k, w) List.mem_cons_self
    rw [Cells.read_cons, if_neg (by omega)]
    exact ih fun e he => h e (List.mem_cons_of_mem _ he)

/-- What an index reads as is listed for it, or it reads as the default. -/
theorem Cells.read_eq_or_mem (d : α) (c : Cells α) (a : Nat) :
    Cells.read d c a = d ∨ (a, Cells.read d c a) ∈ c := by
  induction c with
  | nil => exact .inl rfl
  | cons e rest ih =>
    obtain ⟨k, w⟩ := e
    rw [Cells.read_cons]
    split
    · subst_vars
      exact .inr List.mem_cons_self
    · exact ih.imp_right (List.mem_cons_of_mem _)

/-- The canonical form is canonical: two arrays in it that read alike are the same list. -/
theorem Cells.eq_of_read_eq [DecidableEq α] {d : α} :
    ∀ {c c' : Cells α}, Cells.wf d c → Cells.wf d c' →
      (∀ a, Cells.read d c a = Cells.read d c' a) → c = c'
  | [], [], _, _, _ => rfl
  | [], (k, v) :: rest, _, h', hr => by
    have hv := hr k
    rw [Cells.read_nil, Cells.read_cons, if_pos rfl] at hv
    exact absurd hv.symm (h'.2 (k, v) List.mem_cons_self)
  | (k, v) :: rest, [], h, _, hr => by
    have hv := hr k
    rw [Cells.read_nil, Cells.read_cons, if_pos rfl] at hv
    exact absurd hv (h.2 (k, v) List.mem_cons_self)
  | (k, v) :: rest, (k', v') :: rest', h, h', hr => by
    obtain ⟨h1, h2⟩ := List.pairwise_cons.1 h.1
    obtain ⟨h1', h2'⟩ := List.pairwise_cons.1 h'.1
    have hv : v ≠ d := h.2 (k, v) List.mem_cons_self
    have hv' : v' ≠ d := h'.2 (k', v') List.mem_cons_self
    have hkk : k = k' := by
      rcases Nat.lt_trichotomy k k' with hlt | heq | hgt
      · have := hr k
        rw [Cells.read_cons, if_pos rfl, Cells.read_cons, if_neg (by omega),
          Cells.read_of_lt_head fun e he => hlt.trans (h1' e he)] at this
        exact absurd this hv
      · exact heq
      · have := hr k'
        rw [Cells.read_cons, if_neg (by omega), Cells.read_cons, if_pos rfl,
          Cells.read_of_lt_head fun e he => hgt.trans (h1 e he)] at this
        exact absurd this.symm hv'
    subst hkk
    have hvv : v = v' := by simpa [Cells.read_cons] using hr k
    subst hvv
    have hrest : rest = rest' := by
      refine Cells.eq_of_read_eq ⟨h2, fun e he => h.2 e (List.mem_cons_of_mem _ he)⟩
        ⟨h2', fun e he => h'.2 e (List.mem_cons_of_mem _ he)⟩ fun a => ?_
      by_cases ha : a = k
      · subst ha
        rw [Cells.read_of_lt_head h1, Cells.read_of_lt_head h1']
      · simpa [Cells.read_cons, ha] using hr a
    rw [hrest]

/-! ### Physical memory -/

theorem State.memRead_memWrite (s : State) (a b : Nat) (v : MemWord) :
    (s.memWrite a v).memRead b = if b = a then v else s.memRead b :=
  Cells.read_write 0 s.mem a b v

theorem State.memWrite_wf (s : State) (a : Nat) (v : MemWord) (h : Memory.wf s.mem) :
    Memory.wf (s.memWrite a v).mem :=
  Cells.write_wf a v h

theorem State.reset_mem_wf : Memory.wf State.reset.mem := Cells.wf_nil 0

/-! ### Page tables -/

/-- The four tables do not overlap in the array. -/
theorem ptIndex_inj {p q : Pid} {v w : Vpn} : ptIndex p v = ptIndex q w ↔ p = q ∧ v = w := by
  refine ⟨fun h => ?_, fun h => by rw [h.1, h.2]⟩
  unfold ptIndex at h
  have hv := v.isLt
  have hw := w.isLt
  exact ⟨BitVec.eq_of_toNat_eq (by omega), BitVec.eq_of_toNat_eq (by omega)⟩

theorem PageTables.ptLookup_ptStore (pt : PageTables) (p q : Pid) (v w : Vpn) (e : PtEntry) :
    (pt.ptStore p v e).ptLookup q w = if q = p ∧ w = v then e else pt.ptLookup q w := by
  unfold PageTables.ptLookup PageTables.ptStore
  rw [Cells.read_write]
  simp only [ptIndex_inj]

theorem PageTables.ptStore_wf (pt : PageTables) (p : Pid) (v : Vpn) (e : PtEntry)
    (h : PageTables.wf pt) : PageTables.wf (pt.ptStore p v e) :=
  Cells.write_wf _ e h

/-- `pt_map` writes every field of one entry and no other entry (42_page_table.md R74). -/
theorem PageTables.ptLookup_ptMap (pt : PageTables) (p q : Pid) (v w : Vpn) (pfn : Pfn) :
    (pt.ptMap p v pfn).ptLookup q w =
      if q = p ∧ w = v then { pfn := pfn, present := 0, valid := true } else pt.ptLookup q w :=
  pt.ptLookup_ptStore p q v w _

/-- `pt_unmap` clears one valid bit and writes no other entry (42_page_table.md R75). -/
theorem PageTables.ptLookup_ptUnmap (pt : PageTables) (p q : Pid) (v w : Vpn) :
    (pt.ptUnmap p v).ptLookup q w =
      if q = p ∧ w = v then { pt.ptLookup p v with valid := false } else pt.ptLookup q w :=
  pt.ptLookup_ptStore p q v w _

end Sys2Proof.Machine
end

