-- ==== Sys2Proof/Laws/State.lean ====
section
/-! SUPPORT. One lemma per field and update of State, and what raising a status does field by field. -/
namespace Sys2Proof.Machine

/-! ### `answer` -/

@[simp] theorem State.answer_params (s : State) (r : Response) : (s.answer r).params = s.params := rfl
@[simp] theorem State.answer_configured (s : State) (r : Response) : (s.answer r).configured = s.configured := rfl
@[simp] theorem State.answer_halted (s : State) (r : Response) : (s.answer r).halted = s.halted := rfl
@[simp] theorem State.answer_haltCause (s : State) (r : Response) : (s.answer r).haltCause = s.haltCause := rfl
@[simp] theorem State.answer_cfgOff (s : State) (r : Response) : (s.answer r).cfgOff = s.cfgOff := rfl
@[simp] theorem State.answer_cfgPfn (s : State) (r : Response) : (s.answer r).cfgPfn = s.cfgPfn := rfl
@[simp] theorem State.answer_cfgVpn (s : State) (r : Response) : (s.answer r).cfgVpn = s.cfgVpn := rfl
@[simp] theorem State.answer_tlb (s : State) (r : Response) : (s.answer r).tlb = s.tlb := rfl
@[simp] theorem State.answer_pageTables (s : State) (r : Response) : (s.answer r).pageTables = s.pageTables := rfl
@[simp] theorem State.answer_mem (s : State) (r : Response) : (s.answer r).mem = s.mem := rfl
@[simp] theorem State.answer_resp (s : State) (r : Response) : (s.answer r).resp = r := rfl
@[simp] theorem State.answer_din (s : State) (r : Response) : (s.answer r).din = s.din := rfl
@[simp] theorem State.answer_port (s : State) (r : Response) : (s.answer r).port = s.port := rfl

/-! ### `memWrite` -/

@[simp] theorem State.memWrite_params (s : State) (a : Nat) (v : MemWord) : (s.memWrite a v).params = s.params := rfl
@[simp] theorem State.memWrite_configured (s : State) (a : Nat) (v : MemWord) : (s.memWrite a v).configured = s.configured := rfl
@[simp] theorem State.memWrite_halted (s : State) (a : Nat) (v : MemWord) : (s.memWrite a v).halted = s.halted := rfl
@[simp] theorem State.memWrite_haltCause (s : State) (a : Nat) (v : MemWord) : (s.memWrite a v).haltCause = s.haltCause := rfl
@[simp] theorem State.memWrite_cfgOff (s : State) (a : Nat) (v : MemWord) : (s.memWrite a v).cfgOff = s.cfgOff := rfl
@[simp] theorem State.memWrite_cfgPfn (s : State) (a : Nat) (v : MemWord) : (s.memWrite a v).cfgPfn = s.cfgPfn := rfl
@[simp] theorem State.memWrite_cfgVpn (s : State) (a : Nat) (v : MemWord) : (s.memWrite a v).cfgVpn = s.cfgVpn := rfl
@[simp] theorem State.memWrite_tlb (s : State) (a : Nat) (v : MemWord) : (s.memWrite a v).tlb = s.tlb := rfl
@[simp] theorem State.memWrite_pageTables (s : State) (a : Nat) (v : MemWord) : (s.memWrite a v).pageTables = s.pageTables := rfl
@[simp] theorem State.memWrite_mem (s : State) (a : Nat) (v : MemWord) : (s.memWrite a v).mem = Cells.write 0 s.mem a v := rfl
@[simp] theorem State.memWrite_resp (s : State) (a : Nat) (v : MemWord) : (s.memWrite a v).resp = s.resp := rfl
@[simp] theorem State.memWrite_din (s : State) (a : Nat) (v : MemWord) : (s.memWrite a v).din = s.din := rfl
@[simp] theorem State.memWrite_port (s : State) (a : Nat) (v : MemWord) : (s.memWrite a v).port = s.port := rfl

/-! ### `latch` -/

@[simp] theorem State.latch_params (s : State) (d : Nat) (rest : List PortEvent) : (s.latch d rest).params = s.params := rfl
@[simp] theorem State.latch_configured (s : State) (d : Nat) (rest : List PortEvent) : (s.latch d rest).configured = s.configured := rfl
@[simp] theorem State.latch_halted (s : State) (d : Nat) (rest : List PortEvent) : (s.latch d rest).halted = s.halted := rfl
@[simp] theorem State.latch_haltCause (s : State) (d : Nat) (rest : List PortEvent) : (s.latch d rest).haltCause = s.haltCause := rfl
@[simp] theorem State.latch_cfgOff (s : State) (d : Nat) (rest : List PortEvent) : (s.latch d rest).cfgOff = s.cfgOff := rfl
@[simp] theorem State.latch_cfgPfn (s : State) (d : Nat) (rest : List PortEvent) : (s.latch d rest).cfgPfn = s.cfgPfn := rfl
@[simp] theorem State.latch_cfgVpn (s : State) (d : Nat) (rest : List PortEvent) : (s.latch d rest).cfgVpn = s.cfgVpn := rfl
@[simp] theorem State.latch_tlb (s : State) (d : Nat) (rest : List PortEvent) : (s.latch d rest).tlb = s.tlb := rfl
@[simp] theorem State.latch_pageTables (s : State) (d : Nat) (rest : List PortEvent) : (s.latch d rest).pageTables = s.pageTables := rfl
@[simp] theorem State.latch_mem (s : State) (d : Nat) (rest : List PortEvent) : (s.latch d rest).mem = s.mem := rfl
@[simp] theorem State.latch_resp (s : State) (d : Nat) (rest : List PortEvent) : (s.latch d rest).resp = s.resp := rfl
@[simp] theorem State.latch_din (s : State) (d : Nat) (rest : List PortEvent) : (s.latch d rest).din = lowBits s.params.wordBits d := rfl
@[simp] theorem State.latch_port (s : State) (d : Nat) (rest : List PortEvent) : (s.latch d rest).port = rest := rfl

/-! ### `present` -/

@[simp] theorem State.present_params (s : State) (cw : CommandWord) (d : Nat) : (s.present cw d).params = s.params := rfl
@[simp] theorem State.present_configured (s : State) (cw : CommandWord) (d : Nat) : (s.present cw d).configured = s.configured := rfl
@[simp] theorem State.present_halted (s : State) (cw : CommandWord) (d : Nat) : (s.present cw d).halted = s.halted := rfl
@[simp] theorem State.present_haltCause (s : State) (cw : CommandWord) (d : Nat) : (s.present cw d).haltCause = s.haltCause := rfl
@[simp] theorem State.present_cfgOff (s : State) (cw : CommandWord) (d : Nat) : (s.present cw d).cfgOff = s.cfgOff := rfl
@[simp] theorem State.present_cfgPfn (s : State) (cw : CommandWord) (d : Nat) : (s.present cw d).cfgPfn = s.cfgPfn := rfl
@[simp] theorem State.present_cfgVpn (s : State) (cw : CommandWord) (d : Nat) : (s.present cw d).cfgVpn = s.cfgVpn := rfl
@[simp] theorem State.present_tlb (s : State) (cw : CommandWord) (d : Nat) : (s.present cw d).tlb = s.tlb := rfl
@[simp] theorem State.present_pageTables (s : State) (cw : CommandWord) (d : Nat) : (s.present cw d).pageTables = s.pageTables := rfl
@[simp] theorem State.present_mem (s : State) (cw : CommandWord) (d : Nat) : (s.present cw d).mem = s.mem := rfl
@[simp] theorem State.present_resp (s : State) (cw : CommandWord) (d : Nat) : (s.present cw d).resp = s.resp := rfl
@[simp] theorem State.present_din (s : State) (cw : CommandWord) (d : Nat) : (s.present cw d).din = s.din := rfl
@[simp] theorem State.present_port (s : State) (cw : CommandWord) (d : Nat) : (s.present cw d).port = .command cw d :: s.port := rfl

/-! ### `established` -/

@[simp] theorem State.established_params (s : State) (off pfnb vpnb : SizeField) : (s.established off pfnb vpnb).params = s.params := rfl
@[simp] theorem State.established_configured (s : State) (off pfnb vpnb : SizeField) : (s.established off pfnb vpnb).configured = true := rfl
@[simp] theorem State.established_halted (s : State) (off pfnb vpnb : SizeField) : (s.established off pfnb vpnb).halted = s.halted := rfl
@[simp] theorem State.established_haltCause (s : State) (off pfnb vpnb : SizeField) : (s.established off pfnb vpnb).haltCause = s.haltCause := rfl
@[simp] theorem State.established_cfgOff (s : State) (off pfnb vpnb : SizeField) : (s.established off pfnb vpnb).cfgOff = off := rfl
@[simp] theorem State.established_cfgPfn (s : State) (off pfnb vpnb : SizeField) : (s.established off pfnb vpnb).cfgPfn = pfnb := rfl
@[simp] theorem State.established_cfgVpn (s : State) (off pfnb vpnb : SizeField) : (s.established off pfnb vpnb).cfgVpn = vpnb := rfl
@[simp] theorem State.established_tlb (s : State) (off pfnb vpnb : SizeField) : (s.established off pfnb vpnb).tlb = .zero := rfl
@[simp] theorem State.established_pageTables (s : State) (off pfnb vpnb : SizeField) : (s.established off pfnb vpnb).pageTables = [] := rfl
@[simp] theorem State.established_mem (s : State) (off pfnb vpnb : SizeField) : (s.established off pfnb vpnb).mem = [] := rfl
@[simp] theorem State.established_resp (s : State) (off pfnb vpnb : SizeField) : (s.established off pfnb vpnb).resp = s.resp := rfl
@[simp] theorem State.established_din (s : State) (off pfnb vpnb : SizeField) : (s.established off pfnb vpnb).din = s.din := rfl
@[simp] theorem State.established_port (s : State) (off pfnb vpnb : SizeField) : (s.established off pfnb vpnb).port = s.port := rfl

/-! ### `restart` -/

@[simp] theorem State.restart_params (s : State) : (s.restart).params = s.params := rfl
@[simp] theorem State.restart_configured (s : State) : (s.restart).configured = false := rfl
@[simp] theorem State.restart_halted (s : State) : (s.restart).halted = false := rfl
@[simp] theorem State.restart_haltCause (s : State) : (s.restart).haltCause = 0 := rfl
@[simp] theorem State.restart_cfgOff (s : State) : (s.restart).cfgOff = 0 := rfl
@[simp] theorem State.restart_cfgPfn (s : State) : (s.restart).cfgPfn = 0 := rfl
@[simp] theorem State.restart_cfgVpn (s : State) : (s.restart).cfgVpn = 0 := rfl
@[simp] theorem State.restart_tlb (s : State) : (s.restart).tlb = .zero := rfl
@[simp] theorem State.restart_pageTables (s : State) : (s.restart).pageTables = [] := rfl
@[simp] theorem State.restart_mem (s : State) : (s.restart).mem = [] := rfl
@[simp] theorem State.restart_resp (s : State) : (s.restart).resp = .zero := rfl
@[simp] theorem State.restart_din (s : State) : (s.restart).din = 0 := rfl
@[simp] theorem State.restart_port (s : State) : (s.restart).port = s.port := rfl

/-! ### `raise` -/

@[simp] theorem State.raise_params (s : State) (e : Status) : (s.raise e).params = s.params := by
  cases e <;> rfl
@[simp] theorem State.raise_configured (s : State) (e : Status) : (s.raise e).configured = s.configured := by
  cases e <;> rfl
@[simp] theorem State.raise_halted (s : State) (e : Status) : (s.raise e).halted = (e.fatal || s.halted) := by
  cases e <;> rfl
@[simp] theorem State.raise_haltCause (s : State) (e : Status) : (s.raise e).haltCause = (if e.fatal then e.code else s.haltCause) := by
  cases e <;> rfl
@[simp] theorem State.raise_cfgOff (s : State) (e : Status) : (s.raise e).cfgOff = s.cfgOff := by
  cases e <;> rfl
@[simp] theorem State.raise_cfgPfn (s : State) (e : Status) : (s.raise e).cfgPfn = s.cfgPfn := by
  cases e <;> rfl
@[simp] theorem State.raise_cfgVpn (s : State) (e : Status) : (s.raise e).cfgVpn = s.cfgVpn := by
  cases e <;> rfl
@[simp] theorem State.raise_tlb (s : State) (e : Status) : (s.raise e).tlb = s.tlb := by
  cases e <;> rfl
@[simp] theorem State.raise_pageTables (s : State) (e : Status) : (s.raise e).pageTables = s.pageTables := by
  cases e <;> rfl
@[simp] theorem State.raise_mem (s : State) (e : Status) : (s.raise e).mem = s.mem := by
  cases e <;> rfl
@[simp] theorem State.raise_resp (s : State) (e : Status) : (s.raise e).resp = .only e := by
  cases e <;> rfl
@[simp] theorem State.raise_din (s : State) (e : Status) : (s.raise e).din = s.din := by
  cases e <;> rfl
@[simp] theorem State.raise_port (s : State) (e : Status) : (s.raise e).port = s.port := by
  cases e <;> rfl

/-- Raising a status that is not fatal answers it and does nothing else. -/
theorem State.raise_of_not_fatal (s : State) (e : Status) (h : e.fatal = false) :
    s.raise e = { s with resp := .only e } := by
  simp [State.raise, h, State.answer]

/-- Raising a fatal status halts, records its code and answers it (60_exceptions.md R96). -/
theorem State.raise_of_fatal (s : State) (e : Status) (h : e.fatal = true) :
    s.raise e = { s with halted := true, haltCause := e.code, resp := .only e } := by
  simp [State.raise, h]

@[simp] theorem Response.only_status (e : Status) : (Response.only e).status = e := rfl
@[simp] theorem Response.zero_status : Response.zero.status = .ok := rfl
@[simp] theorem Response.zero_data : Response.zero.data = 0 := rfl
@[simp] theorem Response.zero_ew : Response.zero.ew = 0 := rfl

@[simp] theorem State.memWords_answer (s : State) (r : Response) : (s.answer r).memWords = s.memWords := rfl
@[simp] theorem State.memRead_answer (s : State) (r : Response) (a : Nat) : (s.answer r).memRead a = s.memRead a := rfl

end Sys2Proof.Machine
end

