-- ==== Sys2Proof/Laws/Tlb.lean ====
section
/-! SUPPORT. The slot array, the lowest slot of a set, and what each TLB operation does to each slot. -/
namespace Sys2Proof.Machine

/-! ### The slot array -/

@[simp] theorem Tlb.get_set_same (t : Tlb) (k : Slot) (e : TlbEntry) : (t.set k e).get k = e := by
  fin_cases k <;> rfl

theorem Tlb.get_set (t : Tlb) (k j : Slot) (e : TlbEntry) :
    (t.set k e).get j = if j = k then e else t.get j := by
  fin_cases k <;> fin_cases j <;> rfl

theorem Tlb.get_set_ne (t : Tlb) {k j : Slot} (e : TlbEntry) (h : j ≠ k) : (t.set k e).get j = t.get j := by
  rw [Tlb.get_set, if_neg h]

@[simp] theorem Tlb.get_map (t : Tlb) (f : TlbEntry → TlbEntry) (k : Slot) : (t.map f).get k = f (t.get k) := by
  fin_cases k <;> rfl

@[simp] theorem Tlb.get_zero (k : Slot) : Tlb.zero.get k = .zero := by
  fin_cases k <;> rfl

/-- Two arrays with the same slots are the same array. -/
theorem Tlb.eq_of_get_eq {t u : Tlb} (h : ∀ k, t.get k = u.get k) : t = u := by
  cases t
  cases u
  have h0 := h 0
  have h1 := h 1
  have h2 := h 2
  have h3 := h 3
  have h4 := h 4
  have h5 := h 5
  have h6 := h 6
  have h7 := h 7
  simp only [Tlb.get] at h0 h1 h2 h3 h4 h5 h6 h7
  subst_vars
  rfl

theorem mem_slots (k : Slot) : k ∈ slots := by
  fin_cases k <;> decide

theorem slots_pairwise : slots.Pairwise (· < ·) := by decide

/-- `min {s | P(s)}` is a slot with P below every other slot with P (00_scope.md R12). -/
theorem lowestSlot_eq_some_iff {p : Slot → Bool} {k : Slot} :
    lowestSlot p = some k ↔ p k = true ∧ ∀ j, p j = true → k ≤ j := by
  unfold lowestSlot
  constructor
  · intro h
    refine ⟨List.find?_some h, fun j hj => ?_⟩
    obtain ⟨_, as, bs, heq, has⟩ := List.find?_eq_some_iff_append.1 h
    have hmem := mem_slots j
    rw [heq] at hmem
    rcases List.mem_append.1 hmem with hm | hm
    · have := has j hm
      simp [hj] at this
    · rcases List.mem_cons.1 hm with rfl | hm
      · exact le_refl _
      · have hp := slots_pairwise
        rw [heq] at hp
        exact le_of_lt ((List.pairwise_cons.1 (List.pairwise_append.1 hp).2.1).1 j hm)
  · rintro ⟨hk, hmin⟩
    cases h : slots.find? p with
    | none =>
      have := List.find?_eq_none.1 h k (mem_slots k)
      simp [hk] at this
    | some j =>
      have hj := List.find?_some h
      obtain ⟨_, as, bs, heq, has⟩ := List.find?_eq_some_iff_append.1 h
      have hkj := hmin j hj
      rcases lt_or_eq_of_le hkj with hlt | heq'
      · have hmem := mem_slots k
        rw [heq] at hmem
        rcases List.mem_append.1 hmem with hm | hm
        · have := has k hm
          simp [hk] at this
        · rcases List.mem_cons.1 hm with rfl | hm
          · rfl
          · have hp := slots_pairwise
            rw [heq] at hp
            have := (List.pairwise_cons.1 (List.pairwise_append.1 hp).2.1).1 k hm
            exact absurd (lt_trans this hlt) (lt_irrefl _)
      · rw [heq']

/-- There is no lowest slot with P exactly when no slot has P. -/
theorem lowestSlot_eq_none_iff {p : Slot → Bool} : lowestSlot p = none ↔ ∀ j, p j = false := by
  unfold lowestSlot
  rw [List.find?_eq_none]
  exact ⟨fun h j => by simpa using h j (mem_slots j), fun h j _ => by simp [h j]⟩

/-! ### Matching -/

@[simp] theorem TlbEntry.tagged_iff {e : TlbEntry} {vpn : Vpn} {pid : Pid} :
    e.tagged vpn pid = true ↔ e.vpn = vpn ∧ e.pid = pid := by
  simp [TlbEntry.tagged]

theorem Tlb.lookup_eq_some_iff {t : Tlb} {vpn : Vpn} {pid : Pid} {k : Slot} :
    t.lookup vpn pid = some k ↔
      ((t.get k).vpn = vpn ∧ (t.get k).pid = pid) ∧
        ∀ j, (t.get j).vpn = vpn → (t.get j).pid = pid → k ≤ j := by
  simp [Tlb.lookup, lowestSlot_eq_some_iff]

theorem Tlb.lookup_eq_none_iff {t : Tlb} {vpn : Vpn} {pid : Pid} :
    t.lookup vpn pid = none ↔ ∀ j, ¬((t.get j).vpn = vpn ∧ (t.get j).pid = pid) := by
  simp [Tlb.lookup, lowestSlot_eq_none_iff, ← TlbEntry.tagged_iff]

theorem Tlb.lookupValid_eq_some_iff {t : Tlb} {vpn : Vpn} {pid : Pid} {k : Slot} :
    t.lookupValid vpn pid = some k ↔
      ((t.get k).valid = true ∧ (t.get k).vpn = vpn ∧ (t.get k).pid = pid) ∧
        ∀ j, (t.get j).valid = true → (t.get j).vpn = vpn → (t.get j).pid = pid → k ≤ j := by
  simp [Tlb.lookupValid, lowestSlot_eq_some_iff]

theorem Tlb.lookupValid_eq_none_iff {t : Tlb} {vpn : Vpn} {pid : Pid} :
    t.lookupValid vpn pid = none ↔
      ∀ j, ¬((t.get j).valid = true ∧ (t.get j).vpn = vpn ∧ (t.get j).pid = pid) := by
  simp only [Tlb.lookupValid, lowestSlot_eq_none_iff, ← TlbEntry.tagged_iff, Bool.and_eq_false_iff,
    not_and, Bool.not_eq_true]
  exact forall_congr' fun j => by cases (t.get j).valid <;> simp

/-! ### Ages -/

@[simp] theorem Tlb.get_ageValid (t : Tlb) (a : Nat) (k : Slot) :
    (t.ageValid a).get k = (t.get k).aged a :=
  t.get_map _ k

@[simp] theorem TlbEntry.aged_vpn (a : Nat) (e : TlbEntry) : (e.aged a).vpn = e.vpn := by
  unfold TlbEntry.aged; split <;> rfl

@[simp] theorem TlbEntry.aged_pfn (a : Nat) (e : TlbEntry) : (e.aged a).pfn = e.pfn := by
  unfold TlbEntry.aged; split <;> rfl

@[simp] theorem TlbEntry.aged_pid (a : Nat) (e : TlbEntry) : (e.aged a).pid = e.pid := by
  unfold TlbEntry.aged; split <;> rfl

@[simp] theorem TlbEntry.aged_valid (a : Nat) (e : TlbEntry) : (e.aged a).valid = e.valid := by
  unfold TlbEntry.aged; split <;> rfl

theorem TlbEntry.aged_age (a : Nat) (e : TlbEntry) :
    (e.aged a).age = if e.valid then nextAge a e.age else e.age := by
  unfold TlbEntry.aged; split <;> rfl

theorem nextAge_lt (a n : Nat) : nextAge a n < 2 ^ a := Nat.mod_lt _ (Nat.two_pow_pos a)

theorem foldl_max_ge (f : Slot → Nat) (l : List Slot) (m : Nat) :
    m ≤ l.foldl (fun m k => max m (f k)) m ∧ ∀ k ∈ l, f k ≤ l.foldl (fun m k => max m (f k)) m := by
  induction l generalizing m with
  | nil => simp
  | cons a l ih =>
    obtain ⟨h1, h2⟩ := ih (max m (f a))
    simp only [List.foldl_cons, List.mem_cons]
    refine ⟨le_trans (le_max_left _ _) h1, ?_⟩
    rintro k (rfl | hk)
    · exact le_trans (le_max_right _ _) h1
    · exact h2 k hk

theorem foldl_max_mem (f : Slot → Nat) (l : List Slot) (m : Nat) :
    l.foldl (fun m k => max m (f k)) m = m ∨ ∃ k ∈ l, f k = l.foldl (fun m k => max m (f k)) m := by
  induction l generalizing m with
  | nil => simp
  | cons a l ih =>
    simp only [List.foldl_cons, List.mem_cons]
    rcases ih (max m (f a)) with h | ⟨k, hk, hf⟩
    · rcases le_total m (f a) with hm | hm
      · exact .inr ⟨a, .inl rfl, by rw [h, max_eq_right hm]⟩
      · exact .inl (by rw [h, max_eq_left hm])
    · exact .inr ⟨k, .inr hk, hf⟩

theorem Tlb.age_le_maxAge (t : Tlb) (k : Slot) : (t.get k).age ≤ t.maxAge :=
  (foldl_max_ge (fun k => (t.get k).age) slots 0).2 k (mem_slots k)

theorem Tlb.exists_age_eq_maxAge (t : Tlb) : ∃ k, (t.get k).age = t.maxAge := by
  rcases foldl_max_mem (fun k => (t.get k).age) slots 0 with h | ⟨k, _, hk⟩
  · exact ⟨0, le_antisymm (t.age_le_maxAge 0) (le_of_eq_of_le h (Nat.zero_le _))⟩
  · exact ⟨k, hk⟩

/-- Step 3's slot has the largest age, and every lower slot a smaller one (41_tlb.md R66). -/
theorem Tlb.oldest_spec (t : Tlb) :
    (∀ j, (t.get j).age ≤ (t.get t.oldest).age) ∧ ∀ j, j < t.oldest → (t.get j).age < (t.get t.oldest).age := by
  obtain ⟨k, hk⟩ := t.exists_age_eq_maxAge
  unfold Tlb.oldest
  cases h : lowestSlot fun k => (t.get k).age == t.maxAge with
  | none =>
    have := lowestSlot_eq_none_iff.1 h k
    simp [hk] at this
  | some m =>
    obtain ⟨h1, h2⟩ := lowestSlot_eq_some_iff.1 h
    simp only [beq_iff_eq, Option.getD_some] at h1 h2 ⊢
    refine ⟨fun j => h1 ▸ t.age_le_maxAge j, fun j hj => ?_⟩
    refine lt_of_le_of_ne (h1 ▸ t.age_le_maxAge j) fun he => ?_
    exact absurd (h2 j (he.trans h1)) (not_le.2 hj)

/-! ### Refill, insertion, hits and invalidation -/

/-- The three outcomes of `select_refill` (41_tlb.md R66). -/
theorem Tlb.selectRefill_cases (t : Tlb) (vpn : Vpn) (pid : Pid) :
    (∃ k, t.lookup vpn pid = some k ∧ t.selectRefill vpn pid = (k, .reuse)) ∨
      (∃ k, t.lookup vpn pid = none ∧ (t.get k).valid = false ∧ (∀ j, (t.get j).valid = false → k ≤ j) ∧
        t.selectRefill vpn pid = (k, .empty)) ∨
      (t.lookup vpn pid = none ∧ (∀ j, (t.get j).valid = true) ∧ t.selectRefill vpn pid = (t.oldest, .evict)) := by
  unfold Tlb.selectRefill
  cases hl : t.lookup vpn pid with
  | some k => exact .inl ⟨k, rfl, rfl⟩
  | none =>
    cases he : lowestSlot fun k => !(t.get k).valid with
    | some k =>
      obtain ⟨h1, h2⟩ := lowestSlot_eq_some_iff.1 he
      exact .inr (.inl ⟨k, rfl, by simpa using h1, fun j hj => h2 j (by simp [hj]), rfl⟩)
    | none => exact .inr (.inr ⟨rfl, fun j => by simpa using lowestSlot_eq_none_iff.1 he j, rfl⟩)

/-- Each slot after `insert` (41_tlb.md R68). -/
theorem Tlb.insert_get (t : Tlb) (a : Nat) (vpn : Vpn) (pid : Pid) (pfn : Pfn) (j : Slot) :
    (t.insert a vpn pid pfn).tlb.get j =
      if j = (t.selectRefill vpn pid).1 then { vpn := vpn, pfn := pfn, pid := pid, valid := true, age := 0 }
      else (t.get j).aged a := by
  simp only [Tlb.insert, Tlb.get_set, Tlb.get_ageValid]

@[simp] theorem Tlb.insert_slot (t : Tlb) (a : Nat) (vpn : Vpn) (pid : Pid) (pfn : Pfn) :
    (t.insert a vpn pid pfn).slot = (t.selectRefill vpn pid).1 := rfl

@[simp] theorem Tlb.insert_fill (t : Tlb) (a : Nat) (vpn : Vpn) (pid : Pid) (pfn : Pfn) :
    (t.insert a vpn pid pfn).fill = (t.selectRefill vpn pid).2 := rfl

/-- `insert` names a victim, the tag the slot held, exactly when it evicts. -/
theorem Tlb.insert_victim (t : Tlb) (a : Nat) (vpn : Vpn) (pid : Pid) (pfn : Pfn) :
    (t.insert a vpn pid pfn).victim =
      if (t.selectRefill vpn pid).2 = .evict then
        some ((t.get (t.selectRefill vpn pid).1).vpn, (t.get (t.selectRefill vpn pid).1).pid)
      else none := rfl

/-- Each slot after `hit_touch` (41_tlb.md R69). -/
theorem Tlb.hitTouch_get (t : Tlb) (p : Params) (k j : Slot) :
    (t.hitTouch p k).get j =
      match p.policy with
      | .fifo => t.get j
      | .lru => if j = k then { t.get k with age := 0 } else (t.get j).aged p.ageBits := by
  unfold Tlb.hitTouch
  cases p.policy with
  | fifo => rfl
  | lru =>
    simp only [Tlb.get_set, Tlb.get_ageValid]
    split
    · unfold TlbEntry.aged; split <;> rfl
    · rfl

@[simp] theorem Tlb.hitTouch_vpn (t : Tlb) (p : Params) (k j : Slot) :
    ((t.hitTouch p k).get j).vpn = (t.get j).vpn := by
  rw [Tlb.hitTouch_get]; split
  · rfl
  · split
    · subst_vars; rfl
    · simp

@[simp] theorem Tlb.hitTouch_pfn (t : Tlb) (p : Params) (k j : Slot) :
    ((t.hitTouch p k).get j).pfn = (t.get j).pfn := by
  rw [Tlb.hitTouch_get]; split
  · rfl
  · split
    · subst_vars; rfl
    · simp

@[simp] theorem Tlb.hitTouch_pid (t : Tlb) (p : Params) (k j : Slot) :
    ((t.hitTouch p k).get j).pid = (t.get j).pid := by
  rw [Tlb.hitTouch_get]; split
  · rfl
  · split
    · subst_vars; rfl
    · simp

@[simp] theorem Tlb.hitTouch_valid (t : Tlb) (p : Params) (k j : Slot) :
    ((t.hitTouch p k).get j).valid = (t.get j).valid := by
  rw [Tlb.hitTouch_get]; split
  · rfl
  · split
    · subst_vars; rfl
    · simp

/-- `invalidate` answers what `lookup_valid` finds (41_tlb.md R71). -/
theorem Tlb.invalidate_slot (t : Tlb) (vpn : Vpn) (pid : Pid) :
    (t.invalidate vpn pid).1 = t.lookupValid vpn pid := by
  unfold Tlb.invalidate
  cases t.lookupValid vpn pid <;> rfl

/-- Each slot after `invalidate`: the slot it found loses its valid bit, and nothing else changes. -/
theorem Tlb.invalidate_get (t : Tlb) (vpn : Vpn) (pid : Pid) (j : Slot) :
    (t.invalidate vpn pid).2.get j =
      if t.lookupValid vpn pid = some j then { t.get j with valid := false } else t.get j := by
  unfold Tlb.invalidate
  cases h : t.lookupValid vpn pid with
  | none => simp
  | some k =>
    simp only [Tlb.get_set, Option.some.injEq]
    by_cases hjk : j = k
    · subst hjk; simp
    · rw [if_neg hjk, if_neg (Ne.symm hjk)]

end Sys2Proof.Machine
end

