-- ==== Sys2Proof/Laws/Exec.lean ====
section
/-! SUPPORT. What the checks, a translation and the port can do, said once. -/
namespace Sys2Proof.Machine

/-- The four ways through the checks of 45_command_port.md R84. -/
theorem State.perform_cases {gate inRange : Bool} {effect : State → Result} {s : State} {r : Result}
    (h : s.perform gate inRange effect = r) :
    (s.halted = true ∧ r = .next (s.raise .halted)) ∨
      (s.halted = false ∧ gate = false ∧ r = .next (s.raise .configError)) ∨
      (s.halted = false ∧ gate = true ∧ inRange = false ∧ r = .next (s.raise .operandRange)) ∨
      (s.halted = false ∧ gate = true ∧ inRange = true ∧ r = effect s) := by
  unfold State.perform at h
  cases hh : s.halted <;> cases gate <;> cases inRange <;> simp_all

theorem State.perform_of_halted {gate inRange : Bool} {effect : State → Result} {s : State}
    (h : s.halted = true) : s.perform gate inRange effect = .next (s.raise .halted) := by
  simp [State.perform, h]

theorem State.perform_of_ok {gate inRange : Bool} {effect : State → Result} {s : State}
    (h : s.halted = false) (hg : gate = true) (hr : inRange = true) :
    s.perform gate inRange effect = effect s := by
  simp [State.perform, h, hg, hr]

/-- What a translation can do (43_translator.md R77): hit and touch, or refill from a valid entry. -/
theorem State.translate_cases {s t : State} {vpn : Vpn} {pid : Pid} {a : Access}
    (h : s.translate vpn pid = .ok a t) :
    (∃ k, s.tlb.lookupValid vpn pid = some k ∧ t = { s with tlb := s.tlb.hitTouch s.params k } ∧
      a = { pfn := (s.tlb.get k).pfn, hit := true, slot := k, fill := .none, victim := none }) ∨
    (s.tlb.lookupValid vpn pid = none ∧ (s.pageTables.ptLookup pid vpn).valid = true ∧
      t = { s with tlb := (s.tlb.insert s.params.ageBits vpn pid (s.pageTables.ptLookup pid vpn).pfn).tlb } ∧
      a = { pfn := (s.pageTables.ptLookup pid vpn).pfn, hit := false
            slot := (s.tlb.selectRefill vpn pid).1
            fill := (s.tlb.selectRefill vpn pid).2
            victim := (s.tlb.insert s.params.ageBits vpn pid (s.pageTables.ptLookup pid vpn).pfn).victim }) := by
  unfold State.translate at h
  cases hv : s.tlb.lookupValid vpn pid with
  | some k =>
    simp only [hv, Translation.ok.injEq, Tlb.hitTouch_pfn] at h
    exact .inl ⟨k, rfl, h.2.symm, h.1.symm⟩
  | none =>
    simp only [hv] at h
    split at h
    · rename_i hval
      simp only [Translation.ok.injEq] at h
      exact .inr ⟨rfl, hval, h.2.symm, h.1.symm⟩
    · cases h

/-- A translation faults exactly on a miss whose page-table entry is invalid (60_exceptions.md R88). -/
theorem State.translate_eq_pageNotMapped_iff {s : State} {vpn : Vpn} {pid : Pid} :
    s.translate vpn pid = .pageNotMapped ↔
      s.tlb.lookupValid vpn pid = none ∧ (s.pageTables.ptLookup pid vpn).valid = false := by
  unfold State.translate
  cases s.tlb.lookupValid vpn pid with
  | some k => simp
  | none => cases hv : (s.pageTables.ptLookup pid vpn).valid <;> simp [hv]

/-- A resolved address is a translation and the address composed from it (43_translator.md R78). -/
theorem State.virtualToPhysical_eq_ok_iff {s t : State} {va : VirtAddr} {pid : Pid} {a : Access} {pa : Nat} :
    s.virtualToPhysical va pid = .ok a pa t ↔
      s.translate (s.vpnOf va) pid = .ok a t ∧ pa = s.physAddr a.pfn (s.offsetOf va) := by
  unfold State.virtualToPhysical
  cases s.translate (s.vpnOf va) pid with
  | ok a' t' =>
    simp only [Resolution.ok.injEq, Translation.ok.injEq]
    constructor
    · rintro ⟨rfl, rfl, rfl⟩
      exact ⟨⟨rfl, rfl⟩, rfl⟩
    · rintro ⟨⟨rfl, rfl⟩, rfl⟩
      exact ⟨rfl, rfl, rfl⟩
  | pageNotMapped => simp

theorem State.virtualToPhysical_eq_pageNotMapped_iff {s : State} {va : VirtAddr} {pid : Pid} :
    s.virtualToPhysical va pid = .pageNotMapped ↔ s.translate (s.vpnOf va) pid = .pageNotMapped := by
  unfold State.virtualToPhysical
  cases s.translate (s.vpnOf va) pid <;> simp

/-- A step is one of the port's own answers, or a decoded command performed. -/
theorem step_cases (s : State) :
    (s.port = [] ∧ step s = .next s) ∨
      (∃ rest, s.port = .reset :: rest ∧ step s = .next { s with port := rest }.restart) ∨
      (∃ cw d rest, s.port = .command cw d :: rest ∧
        ((s.halted = true ∧ step s = .next ((s.latch d rest).raise .halted)) ∨
          (s.halted = false ∧ (∃ why, decode cw = .illegal why) ∧
            step s = .next ((s.latch d rest).raise .illegalCommand)) ∨
          (s.halted = false ∧ ∃ i, decode cw = .command i ∧ step s = exec i (s.latch d rest)))) := by
  unfold step State.accept
  cases hp : s.port with
  | nil => exact .inl ⟨rfl, rfl⟩
  | cons e rest =>
    cases e with
    | reset => exact .inr (.inl ⟨rest, rfl, rfl⟩)
    | command cw d =>
      refine .inr (.inr ⟨cw, d, rest, rfl, ?_⟩)
      cases hh : s.halted with
      | true => exact .inl ⟨rfl, by simp [State.acceptCommand, hh]⟩
      | false =>
        cases hd : decode cw with
        | illegal why => exact .inr (.inl ⟨rfl, ⟨why, rfl⟩, by simp [State.acceptCommand, hh, hd]⟩)
        | command i => exact .inr (.inr ⟨rfl, i, rfl, by simp [State.acceptCommand, hh, hd]⟩)

/-- The run of the host's core, one step at a time. -/
theorem core_run_succ {n : Nat} {s u : State} (h : step s = .next u) :
    Sys2Proof.core.run (n + 1) s = Sys2Proof.core.run n u := by
  have hs : Sys2Proof.core.step s = .next u := h
  simp only [Host.Core.run, hs]

/-- A run that goes on has a first step. -/
theorem core_run_succ_eq_next {n : Nat} {s t : State} (h : Sys2Proof.core.run (n + 1) s = .next t) :
    ∃ u, step s = .next u ∧ Sys2Proof.core.run n u = .next t := by
  cases hs : Sys2Proof.core.step s with
  | next u => exact ⟨u, hs, (core_run_succ hs).symm.trans h⟩
  | fault r => simp [Host.Core.run, hs] at h
  | refused r => simp [Host.Core.run, hs] at h

end Sys2Proof.Machine
end

