-- ==== Sys2Proof/Laws/Flags.lean ====
section
/-! SUPPORT. The response records that commands build, field by field (Sys2Proof/Machine/Flags.lean). -/
namespace Sys2Proof.Machine

@[simp] theorem Response.withVictim_status (r : Response) (v : Option (Vpn × Pid)) :
    (r.withVictim v).status = r.status := by cases v <;> rfl

@[simp] theorem Response.withVictim_hit (r : Response) (v : Option (Vpn × Pid)) :
    (r.withVictim v).hit = r.hit := by cases v <;> rfl

@[simp] theorem Response.withVictim_slotOk (r : Response) (v : Option (Vpn × Pid)) :
    (r.withVictim v).slotOk = r.slotOk := by cases v <;> rfl

@[simp] theorem Response.withVictim_slot (r : Response) (v : Option (Vpn × Pid)) :
    (r.withVictim v).slot = r.slot := by cases v <;> rfl

@[simp] theorem Response.withVictim_fill (r : Response) (v : Option (Vpn × Pid)) :
    (r.withVictim v).fill = r.fill := by cases v <;> rfl

@[simp] theorem Response.withVictim_pfn (r : Response) (v : Option (Vpn × Pid)) :
    (r.withVictim v).pfn = r.pfn := by cases v <;> rfl

@[simp] theorem Response.withVictim_pa (r : Response) (v : Option (Vpn × Pid)) :
    (r.withVictim v).pa = r.pa := by cases v <;> rfl

@[simp] theorem Response.withVictim_data (r : Response) (v : Option (Vpn × Pid)) :
    (r.withVictim v).data = r.data := by cases v <;> rfl

@[simp] theorem Response.withVictim_ew (r : Response) (v : Option (Vpn × Pid)) :
    (r.withVictim v).ew = r.ew := by cases v <;> rfl

@[simp] theorem Response.withSlot_status (r : Response) (k : Option Slot) :
    (r.withSlot k).status = r.status := by cases k <;> rfl

@[simp] theorem Response.withSlot_hit (r : Response) (k : Option Slot) :
    (r.withSlot k).hit = r.hit := by cases k <;> rfl

@[simp] theorem Response.withSlot_fill (r : Response) (k : Option Slot) :
    (r.withSlot k).fill = r.fill := by cases k <;> rfl

@[simp] theorem Response.withSlot_pfn (r : Response) (k : Option Slot) :
    (r.withSlot k).pfn = r.pfn := by cases k <;> rfl

@[simp] theorem Response.withSlot_data (r : Response) (k : Option Slot) :
    (r.withSlot k).data = r.data := by cases k <;> rfl

@[simp] theorem Response.withSlot_ew (r : Response) (k : Option Slot) :
    (r.withSlot k).ew = r.ew := by cases k <;> rfl

@[simp] theorem Inserted.response_status (r : Inserted) (pfn : Pfn) : (r.response pfn).status = .ok := by
  simp [Inserted.response]

@[simp] theorem Inserted.response_slot (r : Inserted) (pfn : Pfn) : (r.response pfn).slot = r.slot := by
  simp [Inserted.response]

@[simp] theorem Inserted.response_fill (r : Inserted) (pfn : Pfn) : (r.response pfn).fill = r.fill := by
  simp [Inserted.response]

@[simp] theorem Inserted.response_pfn (r : Inserted) (pfn : Pfn) : (r.response pfn).pfn = pfn := by
  simp [Inserted.response]

@[simp] theorem unmapResponse_status (k : Option Slot) (pfn : Pfn) : (unmapResponse k pfn).status = .ok := by
  simp [unmapResponse]

@[simp] theorem unmapResponse_pfn (k : Option Slot) (pfn : Pfn) : (unmapResponse k pfn).pfn = pfn := by
  simp [unmapResponse]

@[simp] theorem Access.response_status (a : Access) (pa : Nat) : (a.response pa).status = .ok := by
  simp [Access.response]

@[simp] theorem Access.response_hit (a : Access) (pa : Nat) : (a.response pa).hit = a.hit := by
  simp [Access.response]

@[simp] theorem Access.response_pfn (a : Access) (pa : Nat) : (a.response pa).pfn = a.pfn := by
  simp [Access.response]

@[simp] theorem Access.response_pa (a : Access) (pa : Nat) : (a.response pa).pa = BitVec.ofNat 16 pa := by
  simp [Access.response]

@[simp] theorem tlbReadout_status (p : Params) (k : Slot) (e : TlbEntry) : (tlbReadout p k e).status = .ok := rfl

@[simp] theorem pteReadout_status (p : Params) (e : PtEntry) : (pteReadout p e).status = .ok := rfl

end Sys2Proof.Machine
end

