-- ==== Sys2Proof/Laws/Operands.lean ====
section
/-! SUPPORT. The split of a virtual address and the composition of a physical one, as arithmetic. -/
namespace Sys2Proof.Machine

/-- With VA in range, the page number is VA shifted, whole, and in range (30_encoding.md R47). -/
theorem State.vpnOf_toNat {s : State} {va : VirtAddr} (hc : s.cfgVpn.toNat ≤ 8)
    (h : va.toNat < 2 ^ (s.cfgVpn.toNat + s.cfgOff.toNat)) :
    (s.vpnOf va).toNat = va.toNat >>> s.cfgOff.toNat ∧ (s.vpnOf va).toNat < 2 ^ s.cfgVpn.toNat := by
  have h1 : va.toNat >>> s.cfgOff.toNat < 2 ^ s.cfgVpn.toNat := by
    rw [Nat.shiftRight_eq_div_pow, Nat.div_lt_iff_lt_mul (Nat.two_pow_pos _), ← Nat.pow_add]
    exact h
  have h2 : 2 ^ s.cfgVpn.toNat ≤ 2 ^ 8 := Nat.pow_le_pow_right (by omega) hc
  have h3 : (s.vpnOf va).toNat = va.toNat >>> s.cfgOff.toNat := by
    simp only [State.vpnOf, BitVec.toNat_ofNat]
    exact Nat.mod_eq_of_lt (by omega)
  exact ⟨h3, h3 ▸ h1⟩

theorem State.vpnOf_eq {s : State} {va : VirtAddr} {vpn : Vpn} (h : vpn.toNat = va.toNat >>> s.cfgOff.toNat) :
    s.vpnOf va = vpn := by
  apply BitVec.eq_of_toNat_eq
  simp only [State.vpnOf, BitVec.toNat_ofNat, ← h]
  exact Nat.mod_eq_of_lt vpn.isLt

theorem State.offsetOf_lt (s : State) (va : VirtAddr) : s.offsetOf va < 2 ^ s.cfgOff.toNat := by
  simp only [State.offsetOf, Nat.one_shiftLeft, Nat.and_two_pow_sub_one_eq_mod]
  exact Nat.mod_lt _ (Nat.two_pow_pos _)

/-- Frame and offset do not overlap (20_memory.md R28). -/
theorem State.physAddr_eq (s : State) (pfn : Pfn) (va : VirtAddr) :
    s.physAddr pfn (s.offsetOf va) = pfn.toNat * 2 ^ s.cfgOff.toNat + s.offsetOf va := by
  rw [State.physAddr, ← Nat.shiftLeft_add_eq_or_of_lt (s.offsetOf_lt va), Nat.shiftLeft_eq]

/-- A frame in range gives an address inside memory (20_memory.md R29). -/
theorem State.physAddr_lt (s : State) (pfn : Pfn) (va : VirtAddr) (h : pfn.toNat < 2 ^ s.cfgPfn.toNat) :
    s.physAddr pfn (s.offsetOf va) < s.memWords := by
  have ho := s.offsetOf_lt va
  have hm : (pfn.toNat + 1) * 2 ^ s.cfgOff.toNat ≤ 2 ^ s.cfgPfn.toNat * 2 ^ s.cfgOff.toNat := Nat.mul_le_mul_right _ h
  rw [s.physAddr_eq, State.memWords, Nat.pow_add]
  nlinarith

end Sys2Proof.Machine
end

