-- ==== Sys2Proof/Laws/PerInstr.lean ====
section
/-! SUPPORT. EncodesIntoItsRow: a command's word belongs to the row of the opcode table that the command stands for
(30_encoding.md R45), one lemma per constructor of Instr. -/
namespace Sys2Proof.Laws

/-- The row masks of the per-process commands keep OP, RSV and the operand bits of `m`. -/
theorem commandWord_and (op : BitVec 4) (pid : Pid) (opnd m : BitVec 16) :
    commandWord op pid opnd &&& ((0xF : BitVec 4) ++ (0 : BitVec 2) ++ (0x3FF : BitVec 10) ++ m) =
      commandWord op 0 (opnd &&& m) := by
  unfold commandWord
  rw [BitVec.and_append, BitVec.and_append, BitVec.and_append]
  congr 1
  congr 1
  · congr 1
    · exact BitVec.and_allOnes
    · simp

/-- The row masks of DEFINE and RDTLB keep the PID bits too. -/
theorem commandWord_and_pid (op : BitVec 4) (pid : Pid) (opnd m : BitVec 16) :
    commandWord op pid opnd &&& ((0xF : BitVec 4) ++ (3 : BitVec 2) ++ (0x3FF : BitVec 10) ++ m) =
      commandWord op pid (opnd &&& m) := by
  unfold commandWord
  rw [BitVec.and_append, BitVec.and_append, BitVec.and_append]
  congr 1
  congr 1
  · congr 1
    · exact BitVec.and_allOnes
    · exact BitVec.and_allOnes

/-- The statement of the family. -/
def EncodesIntoItsRow.Statement (i : Instr) : Prop := i.row ∈ opcodeTable ∧ i.row.holds (encode i) = true

theorem EncodesIntoItsRow.define (off pfnb vpnb : SizeField) : EncodesIntoItsRow.Statement (.define off pfnb vpnb) := by
  refine ⟨by simp [Instr.row, opcodeTable], ?_⟩
  have h := commandWord_and_pid 0x1 0 ((0 : BitVec 4) ++ off ++ pfnb ++ vpnb)
    ((0xF : BitVec 4) ++ (0 : BitVec 4) ++ (0 : BitVec 4) ++ (0 : BitVec 4))
  have h0 : ((0 : BitVec 4) ++ off ++ pfnb ++ vpnb) &&& ((0xF : BitVec 4) ++ (0 : BitVec 4) ++ (0 : BitVec 4) ++ (0 : BitVec 4))
      = (0 : BitVec 16) := by
    rw [BitVec.and_append, BitVec.and_append, BitVec.and_append]
    simp
  rw [h0] at h
  exact beq_iff_eq.2 h

theorem EncodesIntoItsRow.map (pid : Pid) (vpn : Vpn) (pfn : Pfn) : EncodesIntoItsRow.Statement (.map pid vpn pfn) := by
  refine ⟨by simp [Instr.row, opcodeTable], ?_⟩
  have h := commandWord_and 0x2 pid (vpn ++ pfn) 0#16
  rw [BitVec.and_zero] at h
  exact beq_iff_eq.2 h

/-- A vpn operand with its low byte 0 has nothing under the low-byte mask. -/
theorem vpn_and_lowByte (vpn : Vpn) : (vpn ++ (0 : BitVec 8)) &&& ((0 : BitVec 8) ++ (0xFF : BitVec 8)) = (0 : BitVec 16) := by
  rw [BitVec.and_append]
  simp

theorem EncodesIntoItsRow.unmap (pid : Pid) (vpn : Vpn) : EncodesIntoItsRow.Statement (.unmap pid vpn) := by
  refine ⟨by simp [Instr.row, opcodeTable], ?_⟩
  have h := commandWord_and 0x3 pid (vpn ++ (0 : BitVec 8)) ((0 : BitVec 8) ++ (0xFF : BitVec 8))
  rw [vpn_and_lowByte] at h
  exact beq_iff_eq.2 h

theorem EncodesIntoItsRow.load (pid : Pid) (va : VirtAddr) : EncodesIntoItsRow.Statement (.load pid va) := by
  refine ⟨by simp [Instr.row, opcodeTable], ?_⟩
  have h := commandWord_and 0x4 pid va 0#16
  rw [BitVec.and_zero] at h
  exact beq_iff_eq.2 h

theorem EncodesIntoItsRow.store (pid : Pid) (va : VirtAddr) : EncodesIntoItsRow.Statement (.store pid va) := by
  refine ⟨by simp [Instr.row, opcodeTable], ?_⟩
  have h := commandWord_and 0x5 pid va 0#16
  rw [BitVec.and_zero] at h
  exact beq_iff_eq.2 h

theorem EncodesIntoItsRow.xlate (pid : Pid) (va : VirtAddr) : EncodesIntoItsRow.Statement (.xlate pid va) := by
  refine ⟨by simp [Instr.row, opcodeTable], ?_⟩
  have h := commandWord_and 0x6 pid va 0#16
  rw [BitVec.and_zero] at h
  exact beq_iff_eq.2 h

theorem EncodesIntoItsRow.rdtlb (slot : Slot) : EncodesIntoItsRow.Statement (.rdtlb slot) := by
  refine ⟨by simp [Instr.row, opcodeTable], ?_⟩
  fin_cases slot <;> decide

theorem EncodesIntoItsRow.rdpte (pid : Pid) (vpn : Vpn) : EncodesIntoItsRow.Statement (.rdpte pid vpn) := by
  refine ⟨by simp [Instr.row, opcodeTable], ?_⟩
  have h := commandWord_and 0x8 pid (vpn ++ (0 : BitVec 8)) ((0 : BitVec 8) ++ (0xFF : BitVec 8))
  rw [vpn_and_lowByte] at h
  exact beq_iff_eq.2 h

end Sys2Proof.Laws
end

