-- ==== Sys2Proof/Tests/Slice0.lean ====
section
/-! SUPPORT. Tests of the model, each a named theorem on fixed values. The expected values come from the tables of
spec/95_test_vectors.md (section named in each comment) or are written out from the field tables of
30_encoding.md R42, R43, R52 and R53. The last part holds, for every statement of Obligations.lean that has hypotheses, a
concrete instance that meets them all. -/
namespace Sys2Proof.Tests

open Sys2Proof.Machine

/-! ### Helpers -/

/-- The vectors' parameters (95_test_vectors.md, conventions): AGE_BITS 8, PRESENT_BITS 1, WORD_BITS 32. -/
def vectorParams (p : Policy) : Params := { policy := p, ageBits := 8, presentBits := 1, wordBits := 32 }

/-- The state of a result that goes on, else the state given. -/
def outcome (s : State) : Result → State
  | .next t => t
  | .fault _ => s
  | .refused _ => s

/-- Whether a result goes on. -/
def goesOn : Result → Bool
  | .next _ => true
  | .fault _ => false
  | .refused _ => false

theorem eq_next_of_goesOn {s : State} {r : Result} (h : goesOn r = true) : r = .next (outcome s r) := by
  cases r with
  | next t => rfl
  | fault f => cases h
  | refused f => cases h

/-- The state after one command. -/
def after (s : State) (i : Instr) : State := outcome s (exec i s)

/-- The state after a step. -/
def stepped (s : State) : State := outcome s (step s)

theorem exec_after {s : State} {i : Instr} (h : goesOn (exec i s) = true) : exec i s = .next (after s i) :=
  eq_next_of_goesOn h

theorem step_stepped {s : State} (h : goesOn (step s) = true) : step s = .next (stepped s) :=
  eq_next_of_goesOn h

/-- Right after reset. -/
def fresh (p : Policy) : State := State.resetWith (vectorParams p)

/-- Right after DEFINE off, pfnb, vpnb. -/
def defined (p : Policy) (off pfnb vpnb : SizeField) : State := after (fresh p) (.define off pfnb vpnb)

/-- DEFINE 2,2,2 and MAP 0,0,3 (section 1.2). -/
def mapped (p : Policy) : State := after (defined p 2 2 2) (.map 0 0 3)

/-- DEFINE 0,3,4 and MAP 0,v,v for v = 0 to 7 (section 2.2). -/
def eightMaps (p : Policy) : State :=
  [0, 1, 2, 3, 4, 5, 6, 7].foldl (fun s n => after s (.map 0 (BitVec.ofNat 8 n) (BitVec.ofNat 8 n))) (defined p 0 3 4)

/-- A ninth mapping: page 0 keeps its page-table entry and no longer has a slot. -/
def nineMaps (p : Policy) : State := after (eightMaps p) (.map 0 8 0)

/-- Then UNMAP 0,3: slot 3 is free. -/
def oneFree (p : Policy) : State := after (nineMaps p) (.unmap 0 3)

/-- The state with the commands of the given words presented, data words 0. -/
def presenting (s : State) (cws : List CommandWord) : State :=
  { s with port := cws.map fun cw => .command cw 0 }

/-- The halted core of run c of P4. -/
def haltedCore : State := after (fresh .fifo) (.define 9 2 2)

/-! ### Decoding: words written out bit by bit from 30_encoding.md R42 and R43 -/

/-- OP 0001, PID 00, RSV 0, bits 15:12 0000, OFFB 0001, PFNB 0010, VPNB 1000. -/
theorem test_decode_define :
    decode 0b0001_00_0000000000_0000_0001_0010_1000 = .command (.define 1 2 8) := by decide

/-- OP 0010, PID 11, RSV 0, VPN 10000001, PFN 01000010. -/
theorem test_decode_map :
    decode 0b0010_11_0000000000_10000001_01000010 = .command (.map 3 0x81 0x42) := by decide

/-- OP 0011, PID 01, RSV 0, VPN 00000011, bits 7:0 0. -/
theorem test_decode_unmap :
    decode 0b0011_01_0000000000_00000011_00000000 = .command (.unmap 1 3) := by decide

/-- OP 0100, PID 10, RSV 0, VA 1000000000000001. -/
theorem test_decode_load :
    decode 0b0100_10_0000000000_1000000000000001 = .command (.load 2 0x8001) := by decide

/-- OP 0101, PID 01, RSV 0, VA 0000000000000111. -/
theorem test_decode_store :
    decode 0b0101_01_0000000000_0000000000000111 = .command (.store 1 7) := by decide

/-- OP 0110, PID 00, RSV 0, VA 1111111111111111. -/
theorem test_decode_xlate :
    decode 0b0110_00_0000000000_1111111111111111 = .command (.xlate 0 0xFFFF) := by decide

/-- OP 0111, PID 00, RSV 0, bits 15:3 0, SLOT 101. -/
theorem test_decode_rdtlb :
    decode 0b0111_00_0000000000_0000000000000_101 = .command (.rdtlb 5) := by decide

/-- OP 1000, PID 11, RSV 0, VPN 11111111, bits 7:0 0. -/
theorem test_decode_rdpte :
    decode 0b1000_11_0000000000_11111111_00000000 = .command (.rdpte 3 0xFF) := by decide

/-- The illegal words of section 2.5, by the check of R45 that each fails. -/
theorem test_decode_illegal :
    decode 0x00000000 = .illegal .reservedOpcode ∧ decode 0x90000000 = .illegal .reservedOpcode ∧
    decode 0xF0000000 = .illegal .reservedOpcode ∧ decode 0x20010000 = .illegal .reservedField ∧
    decode 0x22000000 = .illegal .reservedField ∧ decode 0x30000301 = .illegal .nonzeroOperandBits ∧
    decode 0x80000001 = .illegal .nonzeroOperandBits ∧ decode 0x70000008 = .illegal .nonzeroOperandBits ∧
    decode 0x74000000 = .illegal .nonzeroPid ∧ decode 0x1C000222 = .illegal .nonzeroPid ∧
    decode 0x10001222 = .illegal .nonzeroOperandBits := by decide

/-- A word of the opcode table as the table numbers its bits. -/
theorem test_decodeTableWord : decodeTableWord 32 0x24000302 = some (.map 1 3 2) ∧ decodeTableWord 32 0 = none := by decide

/-- The encoder writes the words of P3. -/
theorem test_encode :
    encode (.define 1 2 2) = 0x10000122 ∧ encode (.map 1 3 2) = 0x24000302 ∧ encode (.unmap 1 3) = 0x34000300 ∧
    encode (.load 2 1) = 0x48000001 ∧ encode (.store 1 7) = 0x54000007 ∧ encode (.xlate 1 6) = 0x64000006 ∧
    encode (.rdtlb 1) = 0x70000001 ∧ encode (.rdpte 1 3) = 0x84000300 := by decide

/-- Trace lines (30_encoding.md R51) under current_pid 1. -/
theorem test_expand :
    TraceLine.expand 1 (.map 3 2) = some (.command 0x24000302 0) ∧
    TraceLine.expand 1 (.store 7 0x55) = some (.command 0x54000007 0x55) ∧
    TraceLine.expand 1 (.ctxswitch 2) = none ∧ TraceLine.expand 1 (.map 256 0) = none := by decide

/-! ### WellFormed: the check of DEFINE's three operands (00_scope.md R7) -/

theorem test_wellFormed_accepts : Instr.wellFormed (.define 8 8 8) = true := by decide
theorem test_wellFormed_refuses_off : Instr.wellFormed (.define 9 2 2) = false := by decide
theorem test_wellFormed_refuses_pfnb : Instr.wellFormed (.define 2 9 2) = false := by decide
theorem test_wellFormed_refuses_vpnb : Instr.wellFormed (.define 2 2 9) = false := by decide

/-! ### Entry codec (section 2.1) -/

theorem test_encodeTlb :
    encodeTlb 8 { vpn := 0xAB, pfn := 0xCD, pid := 2, valid := true, age := 0x5A } = 0x55E6D5A ∧
    encodeTlb 4 { vpn := 0xAB, pfn := 0xCD, pid := 2, valid := true, age := 0xA } = 0x55E6DA := by decide

theorem test_decodeTlb_ignores_high_bits :
    decodeTlb 8 0xF8001900 = { vpn := 0, pfn := 3, pid := 0, valid := true, age := 0 } := by decide

theorem test_encodePte :
    encodePte 3 { pfn := 0xA5, present := 5, valid := true } = 0xA5B ∧
    decodePte 3 0xA5B = { pfn := 0xA5, present := 5, valid := true } ∧
    decodePte 1 0xC00 = { pfn := 0, present := 0, valid := false } := by decide

/-! ### One step of each instruction -/

/-- `DEFINE 2,2,2` from reset, through the port (section 1.1). -/
theorem test_define :
    (stepped (presenting (fresh .fifo) [0x10000222])).resp = Response.zero ∧
    (stepped (presenting (fresh .fifo) [0x10000222])).configured = true ∧
    (stepped (presenting (fresh .fifo) [0x10000222])).cfgVpn = 2 := by decide

/-- `DEFINE 9,2,2` (run c of P4). -/
theorem test_define_out_of_range :
    haltedCore.resp.status = .configError ∧ haltedCore.configured = false ∧ haltedCore.haltCause = 2 := by decide

/-- `MAP 0,0,3` reuses slot 0 by its zero tag (section 1.2). -/
theorem test_map_reuse :
    (mapped .fifo).resp = { Response.zero with slotOk := true, slot := 0, fill := .reuse, pfn := 3 } ∧
    (mapped .fifo).tlb.get 0 = { vpn := 0, pfn := 3, pid := 0, valid := true, age := 0 } := by decide

/-- The ninth mapping evicts slot 0 under FIFO (section 2.2). -/
theorem test_map_evict :
    (nineMaps .fifo).resp =
      { Response.zero with slotOk := true, slot := 0, fill := .evict, evOk := true, evVpn := 0, evPid := 0 } := by decide

/-- The first UNMAP of section 1.5. -/
theorem test_unmap :
    (after (mapped .lru) (.unmap 0 0)).resp = { Response.zero with slotOk := true, slot := 0, pfn := 3 } := by decide

/-- The second UNMAP of section 1.5. -/
theorem test_unmap_again :
    (after (after (mapped .lru) (.unmap 0 0)) (.unmap 0 0)).resp = { Response.zero with pfn := 3 } := by decide

/-- `LOAD 0,0` hits at physical address 12 (section 1.2). -/
theorem test_load_hit :
    (after (mapped .lru) (.load 0 0)).resp =
      { Response.zero with hit := true, slotOk := true, slot := 0, pfn := 3, pa := 12 } := by decide

/-- `LOAD 0,0` refills the slot that UNMAP freed (section 2.2). -/
theorem test_load_refill :
    (after (oneFree .fifo) (.load 0 0)).resp = { Response.zero with slotOk := true, slot := 3, fill := .empty } := by decide

/-- `STORE 0,1` of 0xDEADBEEF, presented on both ports (P1). -/
theorem test_store :
    (stepped { mapped .fifo with port := [.command 0x50000001 0xDEADBEEF] }).mem = [(13, 0xDEADBEEF)] ∧
    (stepped { mapped .fifo with port := [.command 0x50000001 0xDEADBEEF] }).resp =
      { Response.zero with hit := true, slotOk := true, slot := 0, pfn := 3, pa := 13 } := by decide

/-- A STORE to a page that is not mapped writes nothing (44_memory_access.md R82). -/
theorem test_store_not_mapped :
    (after { mapped .fifo with din := 7 } (.store 0 4)).resp = Response.only .pageNotMapped ∧
    (after { mapped .fifo with din := 7 } (.store 0 4)).mem = [] := by decide

/-- `XLATE 1,0xAB` at the maximum widths (section 2.4). -/
theorem test_xlate_max :
    (after (after (defined .fifo 8 8 0) (.map 1 0 255)) (.xlate 1 0xAB)).resp =
      { Response.zero with hit := true, slotOk := true, slot := 0, pfn := 255, pa := 0xFFAB } := by decide

/-- An LRU hit on the oldest entry: every other age rises, the hit slot's is 0 (section 2.2). -/
theorem test_xlate_lru_ages :
    slots.map (fun k => ((after (eightMaps .lru) (.xlate 0 0)).tlb.get k).age) = [0, 7, 6, 5, 4, 3, 2, 1] := by decide

/-- `RDTLB 0` (section 1.2) and `RDTLB 7` right after DEFINE (section 2.1). -/
theorem test_rdtlb :
    (after (mapped .fifo) (.rdtlb 0)).resp = { Response.zero with slotOk := true, slot := 0, ew := 0x1900 } ∧
    (after (defined .fifo 2 2 2) (.rdtlb 7)).resp = { Response.zero with slotOk := true, slot := 7 } := by decide

/-- `RDPTE 0,0` (P1). -/
theorem test_rdpte :
    (after (mapped .fifo) (.rdpte 0 0)).resp = { Response.zero with pfn := 3, ew := 0xD } := by decide

/-- `RDPTE 0,4` with 4 entries a process (section 1.1). -/
theorem test_rdpte_out_of_range :
    (after (defined .fifo 2 2 2) (.rdpte 0 4)).resp = Response.only .operandRange ∧
    (after (defined .fifo 2 2 2) (.rdpte 0 4)).haltCause = 4 := by decide

/-- Ages wrap modulo 2^AGE_BITS (section 2.2, age helpers with A = 2). -/
theorem test_age_wraps : nextAge 2 3 = 0 := by decide

/-- withFetchWord presents the instruction that the next step runs, from reset too. -/
theorem test_withFetchWord :
    step ((defined .fifo 2 2 2).withFetchWord 32 0x20000003) = exec (.map 0 0 3) (defined .fifo 2 2 2) ∧
    step (State.reset.withFetchWord 32 0x10000222) = exec (.define 2 2 2) State.reset := by constructor <;> rfl

/-! ### Witnesses: states and operands that meet the hypotheses of each statement

`goesOn (exec i s) = true` is the hypothesis that exec answers a next state (exec_after), and `goesOn (step s) = true` that
step does (step_stepped). -/

/-- The states of the witnesses below meet the invariant and perform commands. -/
theorem witness_inv_mapped : (mapped .lru).Inv ∧ (mapped .lru).Ready := by decide
theorem witness_inv_oneFree : (oneFree .fifo).Inv ∧ (oneFree .fifo).Ready := by decide
theorem witness_inv_nineMaps : (nineMaps .fifo).Inv ∧ (nineMaps .fifo).Ready := by decide

theorem witness_StepRunsDecodedCommand :
    (presenting (fresh .fifo) [0x10000222]).port = .command 0x10000222 0 :: [] ∧
    decode 0x10000222 = .command (.define 2 2 2) := by decide

theorem witness_IllegalWordHaltsCore :
    (presenting (mapped .fifo) [0x20010000]).halted = false ∧
    (presenting (mapped .fifo) [0x20010000]).port = .command 0x20010000 0 :: [] ∧
    decode 0x20010000 = .illegal .reservedField := by decide

theorem witness_IdleCoreKeepsState : (mapped .lru).port = [] := by decide

/-- A word that decodes and one that does not, both on the port of a halted core. -/
theorem witness_HaltedCoreAnswersHalted :
    haltedCore.halted = true ∧
    (presenting haltedCore [0x10000222]).port = .command 0x10000222 0 :: [] ∧
    (presenting haltedCore [0x00000000]).port = .command 0x00000000 0 :: [] := by decide

/-- Both outcomes: a command answered HALTED, and the reset input. -/
theorem witness_OnlyResetLeavesHaltedState :
    (presenting haltedCore [0x10000222]).halted = true ∧ goesOn (step (presenting haltedCore [0x10000222])) = true ∧
    (stepped (presenting haltedCore [0x10000222])).halted = true ∧
    goesOn (step { haltedCore with port := [.reset] }) = true ∧
    (stepped { haltedCore with port := [.reset] }).halted = false := by decide

theorem witness_UnspecifiedResetStateUnobservable :
    ({ haltedCore with port := [.reset] } : State).port = .reset :: [] ∧
    (presenting (fresh .fifo) [0x10000222]).SameButUnspecified
      { presenting (fresh .fifo) [0x10000222] with
        cfgOff := 15, tlb := (nineMaps .fifo).tlb, pageTables := (nineMaps .fifo).pageTables, mem := [(7, 7)] } := by
  decide

/-- A word of each opcode decodes, so every case of the statement is met. -/
theorem witness_WordsCarryFieldsInPlace :
    decode 0x10000888 = .command (.define 8 8 8) ∧ decode 0x2C00FFFF = .command (.map 3 0xFF 0xFF) ∧
    decode 0x3C00FF00 = .command (.unmap 3 0xFF) ∧ decode 0x4C00FFFF = .command (.load 3 0xFFFF) ∧
    decode 0x5C00FFFF = .command (.store 3 0xFFFF) ∧ decode 0x6C00FFFF = .command (.xlate 3 0xFFFF) ∧
    decode 0x70000007 = .command (.rdtlb 7) ∧ decode 0x8C00FF00 = .command (.rdpte 3 0xFF) := by decide

/-- A word that decodes, with its row, and one that does not. -/
theorem witness_DecoderFollowsTable :
    decode 0x70000007 = .command (.rdtlb 7) ∧ (Instr.rdtlb 7).row ∈ opcodeTable ∧
    (Instr.rdtlb 7).row.holds 0x70000007 = true ∧ decode 0x74000000 = .illegal .nonzeroPid := by decide

/-- Entries with every field at its largest value (the codec's three statements). -/
theorem witness_EntryWords :
    ({ vpn := 0xFF, pfn := 0xFF, pid := 3, valid := true, age := 0xFF } : TlbEntry).age < 2 ^ 8 ∧
    encodeTlb 8 { vpn := 0xFF, pfn := 0xFF, pid := 3, valid := true, age := 0xFF } = 0x7FFFFFF ∧
    ({ pfn := 0xFF, present := 1, valid := true } : PtEntry).present < 2 ^ 1 ∧
    encodePte 1 { pfn := 0xFF, present := 1, valid := true } = 0x3FF := by decide

/-- The three clauses: a MAP before DEFINE, a DEFINE after DEFINE, and a 9 in each operand. -/
theorem witness_ConfigurationErrorsHaltCore :
    (fresh .fifo).halted = false ∧ (fresh .fifo).configured = false ∧
    (mapped .fifo).halted = false ∧ (mapped .fifo).configured = true ∧ 8 < (9 : SizeField).toNat := by decide

/-- The least operands out of range under DEFINE 2,2,2. -/
theorem witness_OperandRangeErrorsHaltCore :
    (mapped .fifo).Ready ∧ 2 ^ (mapped .fifo).cfgVpn.toNat ≤ (4 : Vpn).toNat ∧
    2 ^ (mapped .fifo).cfgPfn.toNat ≤ (4 : Pfn).toNat ∧
    2 ^ ((mapped .fifo).cfgVpn.toNat + (mapped .fifo).cfgOff.toNat) ≤ (16 : VirtAddr).toNat := by decide

/-- A word for each answer: HALTED, ILLEGAL_COMMAND, CONFIG_ERROR, OPERAND_RANGE, PAGE_NOT_MAPPED and OK. They meet the
hypotheses of the statements about refusals, precise faults and statuses too. -/
theorem witness_FirstFailedCheckDecidesStatus :
    (presenting haltedCore [0]).port = .command 0 0 :: [] ∧
    goesOn (step (presenting haltedCore [0])) = true ∧ (stepped (presenting haltedCore [0])).resp.status = .halted ∧
    (stepped (presenting (fresh .fifo) [0x14000222])).resp.status = .illegalCommand ∧
    (stepped (presenting (fresh .fifo) [0x20000400])).resp.status = .configError ∧
    (stepped (presenting (mapped .fifo) [0x20000401])).resp.status = .operandRange ∧
    (stepped (presenting (mapped .fifo) [0x4000000F])).resp.status = .pageNotMapped ∧
    (stepped (presenting (mapped .fifo) [0x40000000])).resp.status = .ok ∧
    goesOn (step (presenting (mapped .fifo) [0x4000000F])) = true := by decide

theorem witness_DefineEstablishesZeroState :
    (fresh .lru).HaltRecorded ∧ (fresh .lru).halted = false ∧ (fresh .lru).configured = false ∧
    (8 : SizeField).toNat ≤ 8 ∧ (0 : SizeField).toNat ≤ 8 := by decide

/-- The largest operands in range under DEFINE 2,2,2. -/
theorem witness_MapInstallsMapping :
    (mapped .fifo).Ready ∧ (3 : Vpn).toNat < 2 ^ (mapped .fifo).cfgVpn.toNat ∧
    (3 : Pfn).toNat < 2 ^ (mapped .fifo).cfgPfn.toNat := by decide

/-- The three clauses: a slot with the tag, none but an invalid slot, none and no invalid slot. -/
theorem witness_MapChoosesRefillSlot :
    (((mapped .fifo).tlb.get 0).vpn = 0 ∧ ((mapped .fifo).tlb.get 0).pid = 0) ∧
    ((∀ j : Slot, ¬(((mapped .fifo).tlb.get j).vpn = 1 ∧ ((mapped .fifo).tlb.get j).pid = 0)) ∧
      ((mapped .fifo).tlb.get 1).valid = false) ∧
    (eightMaps .fifo).Ready ∧ (8 : Vpn).toNat < 2 ^ (eightMaps .fifo).cfgVpn.toNat ∧
    (∀ j : Slot, ¬(((eightMaps .fifo).tlb.get j).vpn = 8 ∧ ((eightMaps .fifo).tlb.get j).pid = 0)) ∧
    ∀ j : Slot, ((eightMaps .fifo).tlb.get j).valid = true := by decide

/-- The two clauses: page 0 has a valid slot, page 3 has none. -/
theorem witness_UnmapClearsMapping :
    (mapped .fifo).Ready ∧ (3 : Vpn).toNat < 2 ^ (mapped .fifo).cfgVpn.toNat ∧
    (∀ j : Slot, ¬(((mapped .fifo).tlb.get j).valid = true ∧ ((mapped .fifo).tlb.get j).vpn = 3 ∧
      ((mapped .fifo).tlb.get j).pid = 0)) ∧
    ((mapped .fifo).tlb.get 0).valid = true ∧ ((mapped .fifo).tlb.get 0).vpn = 0 ∧ ((mapped .fifo).tlb.get 0).pid = 0 ∧
    ∀ j : Slot, ((mapped .fifo).tlb.get j).valid = true → ((mapped .fifo).tlb.get j).vpn = 0 →
      ((mapped .fifo).tlb.get j).pid = 0 → 0 ≤ j := by decide

/-- A page that was unmapped, its stale entry left behind. -/
theorem witness_UnmapWithoutMappingIsNoOp :
    (oneFree .fifo).Inv ∧ (oneFree .fifo).Ready ∧ (3 : Vpn).toNat < 2 ^ (oneFree .fifo).cfgVpn.toNat ∧
    ((oneFree .fifo).pageTables.ptLookup 0 3).valid = false := by decide

/-- The last address of the page in slot 0: LOAD, STORE and XLATE hit. -/
theorem witness_LoadStoreXlateHit :
    (mapped .lru).Inv ∧ (mapped .lru).Ready ∧
    (3 : VirtAddr).toNat < 2 ^ ((mapped .lru).cfgVpn.toNat + (mapped .lru).cfgOff.toNat) ∧
    ((mapped .lru).tlb.get 0).valid = true ∧
    ((mapped .lru).tlb.get 0).vpn.toNat = (3 : VirtAddr).toNat >>> (mapped .lru).cfgOff.toNat ∧
    ((mapped .lru).tlb.get 0).pid = 0 := by decide

/-- A miss that the page table maps, with a free slot. -/
theorem witness_MissRefillsFromPageTable_empty :
    ((oneFree .fifo).Inv ∧ (oneFree .fifo).Ready) ∧
    (0 : VirtAddr).toNat < 2 ^ ((oneFree .fifo).cfgVpn.toNat + (oneFree .fifo).cfgOff.toNat) ∧
    (0 : Vpn).toNat = (0 : VirtAddr).toNat >>> (oneFree .fifo).cfgOff.toNat ∧
    (∀ j : Slot, ¬(((oneFree .fifo).tlb.get j).valid = true ∧ ((oneFree .fifo).tlb.get j).vpn = 0 ∧
      ((oneFree .fifo).tlb.get j).pid = 0)) ∧
    ((oneFree .fifo).pageTables.ptLookup 0 0).valid = true ∧ ((oneFree .fifo).tlb.get 3).valid = false :=
  ⟨witness_inv_oneFree, by decide⟩

/-- A miss that the page table maps, with every slot valid. -/
theorem witness_MissRefillsFromPageTable_evict :
    ((nineMaps .fifo).Inv ∧ (nineMaps .fifo).Ready) ∧
    (0 : VirtAddr).toNat < 2 ^ ((nineMaps .fifo).cfgVpn.toNat + (nineMaps .fifo).cfgOff.toNat) ∧
    (0 : Vpn).toNat = (0 : VirtAddr).toNat >>> (nineMaps .fifo).cfgOff.toNat ∧
    (∀ j : Slot, ¬(((nineMaps .fifo).tlb.get j).valid = true ∧ ((nineMaps .fifo).tlb.get j).vpn = 0 ∧
      ((nineMaps .fifo).tlb.get j).pid = 0)) ∧
    ((nineMaps .fifo).pageTables.ptLookup 0 0).valid = true ∧ ∀ j : Slot, ((nineMaps .fifo).tlb.get j).valid = true :=
  ⟨witness_inv_nineMaps, by decide⟩

/-- The last virtual address under DEFINE 2,2,2, on a page that nothing maps. -/
theorem witness_UnmappedAccessAnswersPageNotMapped :
    (mapped .fifo).Ready ∧
    (15 : VirtAddr).toNat < 2 ^ ((mapped .fifo).cfgVpn.toNat + (mapped .fifo).cfgOff.toNat) ∧
    (3 : Vpn).toNat = (15 : VirtAddr).toNat >>> (mapped .fifo).cfgOff.toNat ∧
    (∀ j : Slot, ¬(((mapped .fifo).tlb.get j).valid = true ∧ ((mapped .fifo).tlb.get j).vpn = 3 ∧
      ((mapped .fifo).tlb.get j).pid = 0)) ∧
    ((mapped .fifo).pageTables.ptLookup 0 3).valid = false := by decide

/-- The mapped core with a frame beyond memory in slot 0, a state that no run reaches: its first address is the least one
outside. -/
def beyondMemory : State :=
  { mapped .fifo with tlb := (mapped .fifo).tlb.set 0 { vpn := 0, pfn := 4, pid := 0, valid := true, age := 0 } }

theorem witness_AccessOutsideMemoryStops :
    beyondMemory.Ready ∧ (0 : VirtAddr).toNat < 2 ^ (beyondMemory.cfgVpn.toNat + beyondMemory.cfgOff.toNat) ∧
    (beyondMemory.tlb.get 0).valid = true ∧
    (beyondMemory.tlb.get 0).vpn.toNat = (0 : VirtAddr).toNat >>> beyondMemory.cfgOff.toNat ∧
    (beyondMemory.tlb.get 0).pid = 0 ∧
    (∀ j : Slot, (beyondMemory.tlb.get j).valid = true → (beyondMemory.tlb.get j).vpn = (beyondMemory.tlb.get 0).vpn →
      (beyondMemory.tlb.get j).pid = 0 → 0 ≤ j) ∧
    2 ^ (beyondMemory.cfgOff.toNat + beyondMemory.cfgPfn.toNat) ≤ composedAddress beyondMemory 4 0 := by decide

/-- Each of LOAD, STORE and XLATE answers OK at the last word of memory. -/
theorem witness_PhysicalAddressesLieInMemory :
    (mapped .lru).Inv ∧
    (goesOn (exec (.load 0 3) (mapped .lru)) = true ∧ (after (mapped .lru) (.load 0 3)).resp.status = .ok) ∧
    (goesOn (exec (.store 0 3) (mapped .lru)) = true ∧ (after (mapped .lru) (.store 0 3)).resp.status = .ok) ∧
    goesOn (exec (.xlate 0 3) (mapped .lru)) = true ∧ (after (mapped .lru) (.xlate 0 3)).resp.status = .ok := by decide

/-- Process 1 maps process 0's frame (section 2.4) and loads the word process 0 stores. -/
def aliased : State := { after (mapped .fifo) (.map 1 1 3) with din := 9 }

theorem witness_LoadAfterStoreReturnsWord :
    aliased.ConfigLegal ∧ goesOn (exec (.store 0 1) aliased) = true ∧ (after aliased (.store 0 1)).resp.status = .ok ∧
    goesOn (exec (.load 1 5) (after aliased (.store 0 1))) = true ∧
    (after (after aliased (.store 0 1)) (.load 1 5)).resp.status = .ok ∧
    (after (after aliased (.store 0 1)) (.load 1 5)).resp.pa = (after aliased (.store 0 1)).resp.pa := by decide

/-- A core about to STORE at physical address 12, with a word at 13. -/
def storing : State := { presenting (mapped .fifo) [0x50000000] with mem := [(13, 5)] }

/-- One step, a STORE at another address. -/
theorem witness_WordKeptUntilStored :
    storing.Inv ∧ storing.configured = true ∧ Sys2Proof.core.run 1 storing = .next (stepped storing) ∧
    ∀ k, k < 1 → ∀ u v : State, Sys2Proof.core.run k storing = .next u → step u = .next v →
      (∀ rest, u.port ≠ .reset :: rest) ∧ ¬StoresTo u v 13 := by
  refine ⟨by decide, by decide, rfl, ?_⟩
  intro k hk u v hu hv
  obtain rfl : k = 0 := by omega
  have hu' : u = storing := (Host.Outcome.next.inj hu).symm
  subst hu'
  have hv' : v = stepped storing := (Host.Outcome.next.inj ((step_stepped (by decide)).symm.trans hv)).symm
  subst hv'
  exact ⟨(by intro rest h; cases h), by rintro ⟨_, _, _, _, _, _, _, _, h⟩; exact absurd h (by decide)⟩

theorem witness_AccessAfterMapHits :
    goesOn (exec (.map 0 3 2) (mapped .lru)) = true ∧ (after (mapped .lru) (.map 0 3 2)).resp.status = .ok ∧
    (15 : VirtAddr).toNat >>> (mapped .lru).cfgOff.toNat = (3 : Vpn).toNat := by decide

theorem witness_AccessAfterUnmapNotMapped :
    (mapped .lru).Inv ∧ goesOn (exec (.unmap 0 0) (mapped .lru)) = true ∧
    (after (mapped .lru) (.unmap 0 0)).resp.status = .ok ∧
    (3 : VirtAddr).toNat >>> (mapped .lru).cfgOff.toNat = (0 : Vpn).toNat := by decide

theorem witness_XlateIsLoadWithoutData :
    exec (.load 0 1) (mapped .lru) = .next (after (mapped .lru) (.load 0 1)) := exec_after (by decide)

theorem witness_RdtlbReadsSlot :
    (mapped .lru).Ready ∧ ((mapped .lru).tlb.get 7).age < 2 ^ (mapped .lru).params.ageBits := by decide

theorem witness_RdpteReadsEntry :
    (mapped .lru).Ready ∧ (3 : Vpn).toNat < 2 ^ (mapped .lru).cfgVpn.toNat ∧
    ((mapped .lru).pageTables.ptLookup 0 3).present < 2 ^ (mapped .lru).params.presentBits := by decide

/-- Both outcomes: a MAP, and a DEFINE that succeeds. -/
theorem witness_OnlyDefineWritesConfiguration :
    goesOn (step (presenting (mapped .fifo) [0x20000303])) = true ∧
    goesOn (step (presenting (fresh .fifo) [0x10000222])) = true ∧
    (stepped (presenting (fresh .fifo) [0x10000222])).configured = true := by decide

/-- Every command goes on somewhere (the two statements about which commands write what). -/
theorem witness_StructuresHaveOnlyTheirWriters :
    goesOn (exec (.define 2 2 2) (fresh .lru)) = true ∧ goesOn (exec (.map 1 3 2) (mapped .lru)) = true ∧
    goesOn (exec (.unmap 1 3) (mapped .lru)) = true ∧ goesOn (exec (.load 0 0) (mapped .lru)) = true ∧
    goesOn (exec (.store 0 0) (mapped .lru)) = true ∧ goesOn (exec (.xlate 0 0) (mapped .lru)) = true ∧
    goesOn (exec (.rdtlb 7) (mapped .lru)) = true ∧ goesOn (exec (.rdpte 1 3) (mapped .lru)) = true := by decide

theorem witness_OtherProcessesKeepPageTables :
    goesOn (exec (.map 1 3 2) (mapped .lru)) = true ∧ (0 : Pid) ≠ 1 := by decide

/-- One step, a MAP: no hit. -/
theorem witness_PoliciesAgreeWithoutHits :
    (∀ k, k ≤ 1 → ∀ u : State,
      Sys2Proof.core.run k ((presenting (mapped .lru) [0x20000303]).withPolicy .fifo) = .next u → 0 < k →
        u.resp.hit = false) ∧
    Sys2Proof.core.run 1 ((presenting (mapped .lru) [0x20000303]).withPolicy .fifo) =
      .next (stepped ((presenting (mapped .lru) [0x20000303]).withPolicy .fifo)) := by
  refine ⟨?_, rfl⟩
  intro k hk u hu hpos
  obtain rfl : k = 1 := by omega
  have hu' : u = stepped ((presenting (mapped .lru) [0x20000303]).withPolicy .fifo) := (Host.Outcome.next.inj hu).symm
  subst hu'
  decide

/-- A state with the invariant whose next step refills by an eviction (the statements about every step). -/
theorem witness_StepKeepsInvariant :
    (presenting (nineMaps .fifo) [0x40000000]).Inv ∧ goesOn (step (presenting (nineMaps .fifo) [0x40000000])) = true := by
  decide

/-- Eight valid slots with distinct ages, the oldest at the last age that does not wrap, and a LOAD on the port. -/
def almostWrapping : State :=
  { presenting (eightMaps .lru) [0x40000000] with
    tlb := (eightMaps .lru).tlb.set 0 { vpn := 0, pfn := 0, pid := 0, valid := true, age := 254 } }

theorem witness_AgesStayDistinctUntilWrap :
    almostWrapping.AgesDistinct ∧
    (∀ k : Slot, (almostWrapping.tlb.get k).valid = true →
      (almostWrapping.tlb.get k).age + 1 < 2 ^ almostWrapping.params.ageBits) ∧
    goesOn (step almostWrapping) = true := by decide

end Sys2Proof.Tests
end

/-! SUPPORT. What a command that answers a next state has done, said once: it raised an error status, or it got through
the checks of 45_command_port.md R84 and completed. -/
namespace Sys2Proof.Machine

/-- A command was answered with an error status, and only what `raise` writes was written (60_exceptions.md R96). -/
def AnswersError (s t : State) : Prop := ∃ e : Status, e ≠ .ok ∧ t = s.raise e

/-- What each command leaves when it completes. A translated access is given with its frame: it writes the TLB alone
(43_translator.md R77). -/
inductive Completes (s : State) : Instr → State → Prop
  | define (off pfnb vpnb : SizeField) :
      Completes s (.define off pfnb vpnb) ((s.established off pfnb vpnb).answer .zero)
  | map (pid : Pid) (vpn : Vpn) (pfn : Pfn) :
      Completes s (.map pid vpn pfn)
        ({ s with tlb := (s.tlb.insert s.params.ageBits vpn pid pfn).tlb
                  pageTables := s.pageTables.ptMap pid vpn pfn }.answer
          ((s.tlb.insert s.params.ageBits vpn pid pfn).response pfn))
  | unmap (pid : Pid) (vpn : Vpn) :
      Completes s (.unmap pid vpn)
        ({ s with tlb := (s.tlb.invalidate vpn pid).2, pageTables := s.pageTables.ptUnmap pid vpn }.answer
          (unmapResponse (s.tlb.invalidate vpn pid).1 ((s.pageTables.ptUnmap pid vpn).ptLookup pid vpn).pfn))
  | load {pid : Pid} {va : VirtAddr} {a : Access} {pa : Nat} {u : Tlb}
      (hv : s.virtualToPhysical va pid = .ok a pa { s with tlb := u }) (hw : s.hasWord pa = true) :
      Completes s (.load pid va) ({ s with tlb := u }.answer { a.response pa with data := s.memRead pa })
  | store {pid : Pid} {va : VirtAddr} {a : Access} {pa : Nat} {u : Tlb}
      (hv : s.virtualToPhysical va pid = .ok a pa { s with tlb := u }) (hw : s.hasWord pa = true) :
      Completes s (.store pid va) (({ s with tlb := u }.memWrite pa s.din).answer (a.response pa))
  | xlate {pid : Pid} {va : VirtAddr} {a : Access} {pa : Nat} {u : Tlb}
      (hv : s.virtualToPhysical va pid = .ok a pa { s with tlb := u }) :
      Completes s (.xlate pid va) ({ s with tlb := u }.answer (a.response pa))
  | rdtlb (k : Slot) : Completes s (.rdtlb k) (s.answer (tlbReadout s.params k (s.tlb.get k)))
  | rdpte (pid : Pid) (vpn : Vpn) :
      Completes s (.rdpte pid vpn) (s.answer (pteReadout s.params (s.pageTables.ptLookup pid vpn)))

/-! ### Inversion of a command -/

/-- The checks in front of a command refuse it with an error status, or its effect answers. -/
theorem State.perform_eq_next {gate inRange : Bool} {effect : State → Result} {s t : State}
    (h : s.perform gate inRange effect = .next t) :
    AnswersError s t ∨ (s.halted = false ∧ gate = true ∧ inRange = true ∧ effect s = .next t) := by
  rcases State.perform_cases h with ⟨-, hr⟩ | ⟨-, -, hr⟩ | ⟨-, -, -, hr⟩ | ⟨hh, hg, hi, hr⟩
  · exact .inl ⟨.halted, by decide, Host.Outcome.next.inj hr⟩
  · exact .inl ⟨.configError, by decide, Host.Outcome.next.inj hr⟩
  · exact .inl ⟨.operandRange, by decide, Host.Outcome.next.inj hr⟩
  · exact .inr ⟨hh, hg, hi, hr.symm⟩

/-- A resolved address comes with a state that differs in the TLB alone, which a hit touched or a miss refilled. -/
theorem State.virtualToPhysical_ok_frame {s t : State} {va : VirtAddr} {pid : Pid} {a : Access} {pa : Nat}
    (h : s.virtualToPhysical va pid = .ok a pa t) :
    t = { s with tlb := t.tlb } ∧
      ((∃ k, t.tlb = s.tlb.hitTouch s.params k) ∨
        ∃ vpn pid pfn, t.tlb = (s.tlb.insert s.params.ageBits vpn pid pfn).tlb) := by
  obtain ⟨htr, -⟩ := State.virtualToPhysical_eq_ok_iff.1 h
  rcases State.translate_cases htr with ⟨k, -, rfl, -⟩ | ⟨-, -, rfl, -⟩
  · exact ⟨rfl, .inl ⟨k, rfl⟩⟩
  · exact ⟨rfl, .inr ⟨_, _, _, rfl⟩⟩

/-- What LOAD, STORE and XLATE share: PAGE_NOT_MAPPED without a translation (60_exceptions.md R88), else `f` of the
translation and the state after it. -/
def State.access (s : State) (va : VirtAddr) (pid : Pid) (f : Access → Nat → State → Result) : Result :=
  match s.virtualToPhysical va pid with
  | .pageNotMapped => .next (s.raise .pageNotMapped)
  | .ok a pa t => f a pa t

theorem execLoad_eq_access (pid : Pid) (va : VirtAddr) (s : State) :
    execLoad pid va s = s.perform s.configured (s.vaInRange va) fun s => s.access va pid fun a pa t =>
      if t.hasWord pa then .next (t.answer { a.response pa with data := t.memRead pa })
      else .fault (.noSuchPhysicalWord pa) := rfl

theorem execStore_eq_access (pid : Pid) (va : VirtAddr) (s : State) :
    execStore pid va s = s.perform s.configured (s.vaInRange va) fun s => s.access va pid fun a pa t =>
      if t.hasWord pa then .next ((t.memWrite pa t.din).answer (a.response pa))
      else .fault (.noSuchPhysicalWord pa) := rfl

theorem execXlate_eq_access (pid : Pid) (va : VirtAddr) (s : State) :
    execXlate pid va s = s.perform s.configured (s.vaInRange va) fun s => s.access va pid fun a pa t =>
      .next (t.answer (a.response pa)) := rfl

/-- An access behind its checks raises an error status, or `f` answers on a state in which the TLB alone is new. -/
theorem State.perform_access_eq_next {s t : State} {gate inRange : Bool} {va : VirtAddr} {pid : Pid}
    {f : Access → Nat → State → Result}
    (h : (s.perform gate inRange fun s => s.access va pid f) = .next t) :
    AnswersError s t ∨ (s.halted = false ∧ gate = true ∧ inRange = true ∧
      ∃ a pa u, s.virtualToPhysical va pid = .ok a pa { s with tlb := u } ∧
        f a pa { s with tlb := u } = .next t) := by
  rcases State.perform_eq_next h with he | ⟨hh, hg, hr, hf⟩
  · exact .inl he
  unfold State.access at hf
  cases hv : s.virtualToPhysical va pid with
  | pageNotMapped =>
    simp only [hv, Host.Outcome.next.injEq] at hf
    exact .inl ⟨.pageNotMapped, by decide, hf.symm⟩
  | ok a pa v =>
    obtain ⟨hframe, -⟩ := State.virtualToPhysical_ok_frame hv
    simp only [hv] at hf
    refine .inr ⟨hh, hg, hr, a, pa, v.tlb, ?_, ?_⟩ <;> rw [← hframe]
    exact hf

/-- The model's stop of notes/assumptions/9.md is no next state, so the address has a word. -/
theorem next_of_hasWord {w : Bool} {x t : State} {r : Fault}
    (h : (if w then .next x else .fault r : Result) = .next t) : w = true ∧ t = x := by
  cases w with
  | true => exact ⟨rfl, (Host.Outcome.next.inj h).symm⟩
  | false => cases h

/-- A command that answers a next state raised an error status, or passed its checks and completed. -/
theorem exec_eq_next {i : Instr} {s t : State} (h : exec i s = .next t) :
    AnswersError s t ∨
      (s.halted = false ∧ s.gateOpen i = true ∧ s.operandsInRange i = true ∧ Completes s i t) := by
  cases i with
  | define off pfnb vpnb =>
    refine (State.perform_eq_next (show execDefine off pfnb vpnb s = .next t from h)).imp_right
      fun ⟨hh, hg, _, heff⟩ => ⟨hh, ?_, rfl, ?_⟩
    · simpa [State.gateOpen, Instr.wellFormed, sizeLegal, and_assoc] using hg
    · cases heff; exact .define off pfnb vpnb
  | map pid vpn pfn =>
    refine (State.perform_eq_next (show execMap pid vpn pfn s = .next t from h)).imp_right
      fun ⟨hh, hg, hr, heff⟩ => ⟨hh, hg, ?_, ?_⟩
    · simpa [State.operandsInRange, State.vpnInRange, State.pfnInRange] using hr
    · cases heff; exact .map pid vpn pfn
  | unmap pid vpn =>
    refine (State.perform_eq_next (show execUnmap pid vpn s = .next t from h)).imp_right
      fun ⟨hh, hg, hr, heff⟩ => ⟨hh, hg, hr, ?_⟩
    cases heff; exact .unmap pid vpn
  | load pid va =>
    refine (State.perform_access_eq_next ((execLoad_eq_access pid va s).symm.trans h)).imp_right
      fun ⟨hh, hg, hr, a, pa, u, hv, hf⟩ => ⟨hh, hg, hr, ?_⟩
    obtain ⟨hw, rfl⟩ := next_of_hasWord hf
    exact .load hv hw
  | store pid va =>
    refine (State.perform_access_eq_next ((execStore_eq_access pid va s).symm.trans h)).imp_right
      fun ⟨hh, hg, hr, a, pa, u, hv, hf⟩ => ⟨hh, hg, hr, ?_⟩
    obtain ⟨hw, rfl⟩ := next_of_hasWord hf
    exact .store hv hw
  | xlate pid va =>
    refine (State.perform_access_eq_next ((execXlate_eq_access pid va s).symm.trans h)).imp_right
      fun ⟨hh, hg, hr, a, pa, u, hv, hf⟩ => ⟨hh, hg, hr, ?_⟩
    cases hf
    exact .xlate hv
  | rdtlb k =>
    refine (State.perform_eq_next (show execRdtlb k s = .next t from h)).imp_right
      fun ⟨hh, hg, hr, heff⟩ => ⟨hh, hg, hr, ?_⟩
    cases heff; exact .rdtlb k
  | rdpte pid vpn =>
    refine (State.perform_eq_next (show execRdpte pid vpn s = .next t from h)).imp_right
      fun ⟨hh, hg, hr, heff⟩ => ⟨hh, hg, hr, ?_⟩
    cases heff; exact .rdpte pid vpn

/-- What a command does to the TLB, whatever the command: nothing, a clearing, a hit's bookkeeping, an insertion or an
invalidation. -/
theorem exec_tlb_cases {i : Instr} {s t : State} (h : exec i s = .next t) :
    t.tlb = s.tlb ∨ t.tlb = .zero ∨ (∃ k, t.tlb = s.tlb.hitTouch s.params k) ∨
      (∃ vpn pid pfn, t.tlb = (s.tlb.insert s.params.ageBits vpn pid pfn).tlb) ∨
      ∃ vpn pid, t.tlb = (s.tlb.invalidate vpn pid).2 := by
  rcases exec_eq_next h with ⟨e, -, rfl⟩ | ⟨-, -, -, hd⟩
  · exact .inl (s.raise_tlb e)
  cases hd with
  | define => exact .inr (.inl rfl)
  | map pid vpn pfn => exact .inr (.inr (.inr (.inl ⟨vpn, pid, pfn, rfl⟩)))
  | unmap pid vpn => exact .inr (.inr (.inr (.inr ⟨vpn, pid, rfl⟩)))
  | load hv | store hv | xlate hv =>
    obtain ⟨-, htlb⟩ := State.virtualToPhysical_ok_frame hv
    exact .inr (.inr (htlb.imp_right .inl))
  | rdtlb | rdpte => exact .inl rfl

end Sys2Proof.Machine

/-! Who writes the configuration, memory, the page tables and the TLB (10_state.md R14, R15, R17). -/
namespace Sys2Proof.Machine

/-! ### The configuration -/

/-- The configuration of two states is the same (10_state.md R14, R15). -/
def State.SameConfiguration (s t : State) : Prop :=
  t.configured = s.configured ∧ t.cfgOff = s.cfgOff ∧ t.cfgPfn = s.cfgPfn ∧ t.cfgVpn = s.cfgVpn

theorem State.sameConfiguration_raise (s : State) (e : Status) : s.SameConfiguration (s.raise e) :=
  ⟨s.raise_configured e, s.raise_cfgOff e, s.raise_cfgPfn e, s.raise_cfgVpn e⟩

/-- A command keeps the configuration, or it is a DEFINE that opens an unconfigured core. -/
theorem exec_configuration_cases {i : Instr} {s t : State} (h : exec i s = .next t) :
    s.SameConfiguration t ∨
      (s.configured = false ∧ t.configured = true ∧ i = .define t.cfgOff t.cfgPfn t.cfgVpn ∧
        i.wellFormed = true) := by
  rcases exec_eq_next h with ⟨e, -, rfl⟩ | ⟨-, hg, -, hd⟩
  · exact .inl (s.sameConfiguration_raise e)
  cases hd with
  | define =>
    obtain ⟨hc, hwf⟩ : s.configured = false ∧ Instr.wellFormed (.define _ _ _) = true := by
      simpa [State.gateOpen] using hg
    exact .inr ⟨hc, rfl, rfl, hwf⟩
  | map | unmap | load | store | xlate | rdtlb | rdpte => exact .inl ⟨rfl, rfl, rfl, rfl⟩

/-- Settles O40: a refused or undecoded word only raises a status, and a decoded one is `exec` on the latched state. -/
theorem onlyDefineWritesConfiguration : Obligations.OnlyDefineWritesConfiguration := by
  intro s t cw d rest hport hstep
  rcases step_cases s with ⟨hp, -⟩ | ⟨_, hp, -⟩ | ⟨cw', d', rest', hp, hcases⟩
  · simp [hport] at hp
  · simp [hport] at hp
  obtain ⟨⟨rfl, rfl⟩, rfl⟩ : (cw = cw' ∧ d = d') ∧ rest = rest' := by simpa [hport] using hp
  rcases hcases with ⟨-, hs⟩ | ⟨-, -, hs⟩ | ⟨-, i, hdec, hs⟩
  · obtain rfl := Host.Outcome.next.inj (hs.symm.trans hstep)
    exact .inl ((s.latch d rest).sameConfiguration_raise .halted)
  · obtain rfl := Host.Outcome.next.inj (hs.symm.trans hstep)
    exact .inl ((s.latch d rest).sameConfiguration_raise .illegalCommand)
  · refine (exec_configuration_cases (hs.symm.trans hstep)).imp_right fun ⟨hc, ht, hi, hwf⟩ => ?_
    rw [hi] at hdec hwf
    obtain ⟨⟨hoff, hpfn⟩, hvpn⟩ : (t.cfgOff.toNat ≤ 8 ∧ t.cfgPfn.toNat ≤ 8) ∧ t.cfgVpn.toNat ≤ 8 := by
      simpa [Instr.wellFormed] using hwf
    exact ⟨hc, ht, hdec, hoff, hpfn, hvpn⟩

/-! ### Memory, page tables and TLB -/

section
variable {s t : State} {i : Instr}

theorem Completes.status_ok (h : Completes s i t) : t.resp.status = .ok := by
  cases h <;> simp

theorem Completes.params_eq (h : Completes s i t) : t.params = s.params := by
  cases h <;> rfl

theorem Completes.mem_cases (h : Completes s i t) :
    t.mem = s.mem ∨ (∃ pid va, i = .store pid va) ∨ ∃ off pfnb vpnb, i = .define off pfnb vpnb := by
  cases h with
  | store => exact .inr (.inl ⟨_, _, rfl⟩)
  | define => exact .inr (.inr ⟨_, _, _, rfl⟩)
  | map | unmap | load | xlate | rdtlb | rdpte => exact .inl rfl

theorem Completes.pageTables_cases (h : Completes s i t) :
    t.pageTables = s.pageTables ∨ (∃ pid vpn pfn, i = .map pid vpn pfn) ∨ (∃ pid vpn, i = .unmap pid vpn) ∨
      ∃ off pfnb vpnb, i = .define off pfnb vpnb := by
  cases h with
  | map => exact .inr (.inl ⟨_, _, _, rfl⟩)
  | unmap => exact .inr (.inr (.inl ⟨_, _, rfl⟩))
  | define => exact .inr (.inr (.inr ⟨_, _, _, rfl⟩))
  | load | store | xlate | rdtlb | rdpte => exact .inl rfl

theorem Completes.rdtlb_tlb {k : Slot} (h : Completes s (.rdtlb k) t) : t.tlb = s.tlb := by
  cases h; rfl

theorem Completes.rdpte_tlb {pid : Pid} {vpn : Vpn} (h : Completes s (.rdpte pid vpn) t) : t.tlb = s.tlb := by
  cases h; rfl

end

/-- Settles O41: an error answer writes none of the structures, and a command that completes answers OK and writes those
that `Completes` says. -/
theorem structuresHaveOnlyTheirWriters : Obligations.StructuresHaveOnlyTheirWriters := by
  intro s t i h
  rcases exec_eq_next h with ⟨e, -, rfl⟩ | ⟨-, -, -, hd⟩
  · exact ⟨s.raise_params e, .inl (s.raise_mem e), .inl (s.raise_pageTables e), fun _ => s.raise_tlb e⟩
  · refine ⟨hd.params_eq, hd.mem_cases, hd.pageTables_cases, ?_⟩
    rintro (⟨k, rfl⟩ | ⟨pid, vpn, rfl⟩ | hne)
    · exact hd.rdtlb_tlb
    · exact hd.rdpte_tlb
    · exact absurd hd.status_ok hne

end Sys2Proof.Machine

/-! I2 of 41_tlb.md R72 is kept by every operation on the TLB and so by every step; one valid slot per tag follows. -/
namespace Sys2Proof.Machine

/-- `State.ValidSlotsLowest` as a property of the slot array: a valid slot is the lowest that carries its tag. -/
def Tlb.ValidLowest (t : Tlb) : Prop :=
  ∀ j k : Slot, (t.get k).valid = true → (t.get j).SameTag (t.get k) → k ≤ j

theorem State.validSlotsLowest_iff (s : State) : s.ValidSlotsLowest ↔ s.tlb.ValidLowest := Iff.rfl

theorem Tlb.validLowest_zero : Tlb.zero.ValidLowest := by
  intro j k hk
  simp [TlbEntry.zero] at hk

/-- A change that keeps every tag and makes no slot valid keeps I2. -/
theorem Tlb.ValidLowest.of_tags_eq {t u : Tlb} (h : t.ValidLowest)
    (htag : ∀ k, (u.get k).vpn = (t.get k).vpn ∧ (u.get k).pid = (t.get k).pid)
    (hvalid : ∀ k, (u.get k).valid = true → (t.get k).valid = true) : u.ValidLowest := by
  rintro j k hk ⟨hvpn, hpid⟩
  obtain ⟨hvj, hpj⟩ := htag j
  obtain ⟨hvk, hpk⟩ := htag k
  exact h j k (hvalid k hk) ⟨by rw [← hvj, ← hvk, hvpn], by rw [← hpj, ← hpk, hpid]⟩

theorem Tlb.ValidLowest.hitTouch {t : Tlb} (h : t.ValidLowest) (p : Params) (k : Slot) :
    (t.hitTouch p k).ValidLowest :=
  h.of_tags_eq (fun j => ⟨t.hitTouch_vpn p k j, t.hitTouch_pid p k j⟩) fun j hj => by simpa using hj

theorem Tlb.ValidLowest.invalidate {t : Tlb} (h : t.ValidLowest) (vpn : Vpn) (pid : Pid) :
    (t.invalidate vpn pid).2.ValidLowest := by
  refine h.of_tags_eq (fun j => ?_) fun j hj => ?_
  · rw [Tlb.invalidate_get]
    split <;> exact ⟨rfl, rfl⟩
  · rw [Tlb.invalidate_get] at hj
    split at hj
    · simp at hj
    · exact hj

/-- When a slot carries the tag, `select_refill` reuses the lowest that does. -/
theorem Tlb.selectRefill_of_tagged {t : Tlb} {vpn : Vpn} {pid : Pid} {j : Slot}
    (hvpn : (t.get j).vpn = vpn) (hpid : (t.get j).pid = pid) :
    (t.get (t.selectRefill vpn pid).1).vpn = vpn ∧ (t.get (t.selectRefill vpn pid).1).pid = pid ∧
      (t.selectRefill vpn pid).1 ≤ j := by
  have found : t.lookup vpn pid ≠ none := fun hn => Tlb.lookup_eq_none_iff.1 hn j ⟨hvpn, hpid⟩
  rcases t.selectRefill_cases vpn pid with ⟨k, hl, hs⟩ | ⟨_, hn, -⟩ | ⟨hn, -⟩
  · obtain ⟨⟨hkv, hkp⟩, hmin⟩ := Tlb.lookup_eq_some_iff.1 hl
    rw [hs]
    exact ⟨hkv, hkp, hmin j hvpn hpid⟩
  · exact absurd hn found
  · exact absurd hn found

/-- An insertion keeps I2: no slot below the one it fills carries the tag, and a valid slot that it does not fill is
compared with slots whose tags the insertion leaves as they were, the filled one included when it reuses the tag. -/
theorem Tlb.ValidLowest.insert {t : Tlb} (h : t.ValidLowest) (a : Nat) (vpn : Vpn) (pid : Pid) (pfn : Pfn) :
    (t.insert a vpn pid pfn).tlb.ValidLowest := by
  intro j k hk htag
  rw [Tlb.insert_get] at hk
  rw [Tlb.insert_get, Tlb.insert_get] at htag
  by_cases hkc : k = (t.selectRefill vpn pid).1
  · by_cases hjc : j = (t.selectRefill vpn pid).1
    · exact (hkc.trans hjc.symm).le
    · rw [if_pos hkc, if_neg hjc] at htag
      obtain ⟨hvpn, hpid⟩ : (t.get j).vpn = vpn ∧ (t.get j).pid = pid := by
        simpa [TlbEntry.SameTag] using htag
      obtain ⟨-, -, hle⟩ := Tlb.selectRefill_of_tagged hvpn hpid
      exact hkc.trans_le hle
  · have hkValid : (t.get k).valid = true := by simpa [hkc] using hk
    rw [if_neg hkc] at htag
    refine h j k hkValid ?_
    by_cases hjc : j = (t.selectRefill vpn pid).1
    · rw [if_pos hjc] at htag
      obtain ⟨hvpn, hpid⟩ : vpn = (t.get k).vpn ∧ pid = (t.get k).pid := by
        simpa [TlbEntry.SameTag] using htag
      obtain ⟨hcv, hcp, -⟩ := Tlb.selectRefill_of_tagged hvpn.symm hpid.symm
      rw [hjc]
      exact ⟨hcv.trans hvpn, hcp.trans hpid⟩
    · simpa [hjc, TlbEntry.SameTag] using htag

/-- Every command keeps I2. -/
theorem exec_keeps_validLowest {i : Instr} {s t : State} (hs : s.tlb.ValidLowest) (h : exec i s = .next t) :
    t.tlb.ValidLowest := by
  rcases exec_tlb_cases h with ht | ht | ⟨k, ht⟩ | ⟨vpn, pid, pfn, ht⟩ | ⟨vpn, pid, ht⟩ <;> rw [ht]
  · exact hs
  · exact Tlb.validLowest_zero
  · exact hs.hitTouch s.params k
  · exact hs.insert s.params.ageBits vpn pid pfn
  · exact hs.invalidate vpn pid

/-- Every step keeps I2, from every state that has it. -/
theorem step_keeps_validLowest {s t : State} (hs : s.tlb.ValidLowest) (h : step s = .next t) :
    t.tlb.ValidLowest := by
  rcases step_cases s with
    ⟨-, hstep⟩ | ⟨rest, -, hstep⟩ | ⟨cw, d, rest, -, ⟨-, hstep⟩ | ⟨-, -, hstep⟩ | ⟨-, i, -, hstep⟩⟩ <;>
    rw [hstep] at h
  · obtain rfl := Host.Outcome.next.inj h
    exact hs
  · obtain rfl := Host.Outcome.next.inj h
    exact Tlb.validLowest_zero
  · obtain rfl := Host.Outcome.next.inj h
    simpa using hs
  · obtain rfl := Host.Outcome.next.inj h
    simpa using hs
  · exact exec_keeps_validLowest (s := s.latch d rest) hs h

/-- Two valid slots of one tag are each the lowest with it. -/
theorem State.oneValidSlotPerTag_of_validSlotsLowest {s : State} (h : s.ValidSlotsLowest) : s.OneValidSlotPerTag :=
  fun j k hj hk ⟨hvpn, hpid⟩ => le_antisymm (h k j hj ⟨hvpn.symm, hpid.symm⟩) (h j k hk ⟨hvpn, hpid⟩)

/-- Settles O47: a step keeps I2 of 41_tlb.md R72, which the invariant holds, and I2 leaves one valid slot per tag. -/
theorem stepKeepsOneValidSlotPerTag : Obligations.StepKeepsOneValidSlotPerTag := by
  rintro s t ⟨-, -, -, -, -, -, -, hlowest, -, -⟩ hstep
  have hs : s.tlb.ValidLowest := s.validSlotsLowest_iff.1 hlowest
  have ht : t.ValidSlotsLowest := t.validSlotsLowest_iff.2 (step_keeps_validLowest hs hstep)
  exact State.oneValidSlotPerTag_of_validSlotsLowest ht

end Sys2Proof.Machine

/-! Physical addresses: every frame that a translation finds is in range in a state with the invariant, so every address
lies inside memory (20_memory.md R28, R29), and 16 bits hold it whole. -/
namespace Sys2Proof.Machine

/-! ### Addresses inside memory -/

/-- PA_BITS is at most 16 (10_state.md R14). -/
theorem State.memWords_le {s : State} (hc : s.ConfigLegal) : s.memWords ≤ 2 ^ 16 := by
  obtain ⟨hoff, hpfn, -⟩ := hc
  exact Nat.pow_le_pow_right (by decide) (by omega)

theorem State.lt_memWords_of_hasWord {s : State} {pa : Nat} (h : s.hasWord pa = true) : pa < s.memWords :=
  of_decide_eq_true h

/-- `resp.pa` holds an address inside memory whole (30_encoding.md R48). -/
theorem State.toNat_ofNat_of_lt_memWords {s : State} {pa : Nat} (hc : s.ConfigLegal) (h : pa < s.memWords) :
    (BitVec.ofNat 16 pa).toNat = pa := by
  rw [BitVec.toNat_ofNat]
  exact Nat.mod_eq_of_lt (h.trans_le (State.memWords_le hc))

/-! ### The frames that a translation finds -/

/-- Every page-table entry's frame is in range, an unlisted entry's being 0 (10_state.md R20). -/
theorem State.PageTablesFit.ptLookup_pfn_lt {s : State} (h : s.PageTablesFit) (pid : Pid) (vpn : Vpn) :
    (s.pageTables.ptLookup pid vpn).pfn.toNat < 2 ^ s.cfgPfn.toNat := by
  obtain ⟨-, hfit⟩ := h
  rcases Cells.read_eq_or_mem PtEntry.zero s.pageTables (ptIndex pid vpn) with hzero | hmem
  · rw [PageTables.ptLookup, hzero]
    exact Nat.two_pow_pos _
  · obtain ⟨-, -, hpfn, -⟩ := hfit _ hmem
    exact hpfn

/-- A translation answers a slot's frame or a page-table entry's (43_translator.md R77). -/
theorem State.translate_pfn_lt {s t : State} {vpn : Vpn} {pid : Pid} {a : Access} (htlb : s.TlbFits)
    (hpt : s.PageTablesFit) (h : s.translate vpn pid = .ok a t) : a.pfn.toNat < 2 ^ s.cfgPfn.toNat := by
  rcases State.translate_cases h with ⟨k, -, -, rfl⟩ | ⟨-, -, -, rfl⟩
  · obtain ⟨-, hpfn, -⟩ := htlb k
    exact hpfn
  · exact hpt.ptLookup_pfn_lt pid vpn

/-- The resolved address is composed of the frame found and the offset (20_memory.md R28). -/
theorem State.virtualToPhysical_composed {s t : State} {va : VirtAddr} {pid : Pid} {a : Access} {pa : Nat}
    (h : s.virtualToPhysical va pid = .ok a pa t) : pa = composedAddress s a.pfn va :=
  (State.virtualToPhysical_eq_ok_iff.1 h).2

/-- Every resolved address lies inside memory (20_memory.md R29). -/
theorem State.virtualToPhysical_lt_memWords {s t : State} {va : VirtAddr} {pid : Pid} {a : Access} {pa : Nat}
    (htlb : s.TlbFits) (hpt : s.PageTablesFit) (h : s.virtualToPhysical va pid = .ok a pa t) : pa < s.memWords := by
  obtain ⟨htr, rfl⟩ := State.virtualToPhysical_eq_ok_iff.1 h
  exact s.physAddr_lt a.pfn va (State.translate_pfn_lt htlb hpt htr)

/-! ### The address that an access answers -/

/-- Only a command that completes answers OK. -/
theorem completes_of_status_ok {i : Instr} {s t : State} (h : exec i s = .next t) (hok : t.resp.status = .ok) :
    Completes s i t := by
  rcases exec_eq_next h with ⟨e, he, rfl⟩ | ⟨-, -, -, hd⟩
  · exact absurd (by simpa using hok) he
  · exact hd

/-- A completed access answers the frame that its translation found and the resolved address. -/
theorem Completes.access_resp {s t : State} {i : Instr} {pid : Pid} {va : VirtAddr} (h : Completes s i t)
    (hi : i = .load pid va ∨ i = .store pid va ∨ i = .xlate pid va) :
    ∃ a pa u, s.virtualToPhysical va pid = .ok a pa { s with tlb := u } ∧
      t.resp.pfn = a.pfn ∧ t.resp.pa = BitVec.ofNat 16 pa := by
  rcases hi with rfl | rfl | rfl
  · cases h with | load hv => exact ⟨_, _, _, hv, by simp, by simp⟩
  · cases h with | store hv => exact ⟨_, _, _, hv, by simp, by simp⟩
  · cases h with | xlate hv => exact ⟨_, _, _, hv, by simp, by simp⟩

/-- Settles O32: the address that a completed access answers was resolved, so it is composed, and it lies inside memory. -/
theorem physicalAddressesLieInMemory : Obligations.PhysicalAddressesLieInMemory := by
  rintro s t pid va i ⟨-, hc, -, htlb, hpt, -, -, -, -, -⟩ hi hexec hok
  obtain ⟨a, pa, u, hv, hpfn, hpa⟩ := (completes_of_status_ok hexec hok).access_resp hi
  have hlt : pa < s.memWords := State.virtualToPhysical_lt_memWords htlb hpt hv
  rw [hpa, State.toNat_ofNat_of_lt_memWords hc hlt, hpfn]
  exact ⟨State.virtualToPhysical_composed hv, hlt⟩

end Sys2Proof.Machine

/-! The model's stop of notes/assumptions/9.md: where it happens, and that no state with the invariant gets there. -/
namespace Sys2Proof.Machine

/-! ### No stop in a state with the invariant -/

/-- The checks in front of a command never stop the machine; only its effect could. -/
theorem State.perform_goes_on {gate inRange : Bool} {effect : State → Result} {s : State} {r : Result}
    (h : r = s.perform gate inRange effect) (heff : ∃ t, effect s = .next t) : ∃ t, r = .next t := by
  rcases State.perform_cases h.symm with ⟨-, hr⟩ | ⟨-, -, hr⟩ | ⟨-, -, -, hr⟩ | ⟨-, -, -, hr⟩
  · exact ⟨_, hr⟩
  · exact ⟨_, hr⟩
  · exact ⟨_, hr⟩
  · rw [hr]
    exact heff

theorem State.access_of_ok {s t : State} {va : VirtAddr} {pid : Pid} {a : Access} {pa : Nat}
    {f : Access → Nat → State → Result} (h : s.virtualToPhysical va pid = .ok a pa t) :
    s.access va pid f = f a pa t := by
  simp only [State.access, h]

/-- In a state with the invariant, memory has a word at every resolved address. -/
theorem State.hasWord_of_virtualToPhysical {s t : State} {va : VirtAddr} {pid : Pid} {a : Access} {pa : Nat}
    (htlb : s.TlbFits) (hpt : s.PageTablesFit) (h : s.virtualToPhysical va pid = .ok a pa t) : t.hasWord pa = true := by
  have hlt : pa < s.memWords := State.virtualToPhysical_lt_memWords htlb hpt h
  obtain ⟨hframe, -⟩ := State.virtualToPhysical_ok_frame h
  rw [hframe]
  exact decide_eq_true hlt

/-- An access goes on if what it does at an address where memory has a word goes on. -/
theorem State.access_goes_on {s : State} {va : VirtAddr} {pid : Pid} {f : Access → Nat → State → Result}
    (htlb : s.TlbFits) (hpt : s.PageTablesFit) (hf : ∀ a pa u, State.hasWord u pa = true → ∃ t, f a pa u = .next t) :
    ∃ t, s.access va pid f = .next t := by
  cases hv : s.virtualToPhysical va pid with
  | pageNotMapped => exact ⟨s.raise .pageNotMapped, by simp only [State.access, hv]⟩
  | ok a pa u =>
    rw [State.access_of_ok hv]
    exact hf a pa u (State.hasWord_of_virtualToPhysical htlb hpt hv)

/-- Every command goes on where the TLB's and the page tables' frames are in range. -/
theorem exec_goes_on {s : State} (htlb : s.TlbFits) (hpt : s.PageTablesFit) (i : Instr) :
    ∃ t, exec i s = .next t := by
  cases i with
  | load pid va =>
    refine State.perform_goes_on (execLoad_eq_access pid va s) (State.access_goes_on htlb hpt ?_)
    exact fun a pa u hw => ⟨_, if_pos hw⟩
  | store pid va =>
    refine State.perform_goes_on (execStore_eq_access pid va s) (State.access_goes_on htlb hpt ?_)
    exact fun a pa u hw => ⟨_, if_pos hw⟩
  | xlate pid va =>
    refine State.perform_goes_on (execXlate_eq_access pid va s) (State.access_goes_on htlb hpt ?_)
    exact fun a pa u _ => ⟨_, rfl⟩
  | define off pfnb vpnb => exact State.perform_goes_on (r := execDefine off pfnb vpnb s) rfl ⟨_, rfl⟩
  | map pid vpn pfn => exact State.perform_goes_on (r := execMap pid vpn pfn s) rfl ⟨_, rfl⟩
  | unmap pid vpn => exact State.perform_goes_on (r := execUnmap pid vpn s) rfl ⟨_, rfl⟩
  | rdtlb k => exact State.perform_goes_on (r := execRdtlb k s) rfl ⟨_, rfl⟩
  | rdpte pid vpn => exact State.perform_goes_on (r := execRdpte pid vpn s) rfl ⟨_, rfl⟩

/-- Settles O46: the port's own answers are next states, and latching a word leaves the TLB and the page tables, so the
decoded command goes on. -/
theorem invariantStatesNeverStop : Obligations.InvariantStatesNeverStop := by
  rintro s ⟨-, -, -, htlb, hpt, -, -, -, -, -⟩
  rcases step_cases s with
    ⟨-, hstep⟩ | ⟨rest, -, hstep⟩ | ⟨cw, d, rest, -, ⟨-, hstep⟩ | ⟨-, -, hstep⟩ | ⟨-, i, -, hstep⟩⟩ <;> rw [hstep]
  · exact ⟨_, rfl⟩
  · exact ⟨_, rfl⟩
  · exact ⟨_, rfl⟩
  · exact ⟨_, rfl⟩
  · exact exec_goes_on (s := s.latch d rest) htlb hpt i

/-! ### The stop at an address outside memory -/

/-- A hit answers its slot's frame and touches the slot (43_translator.md R77). -/
theorem State.translate_hit {s : State} {vpn : Vpn} {pid : Pid} {k : Slot}
    (h : s.tlb.lookupValid vpn pid = some k) :
    s.translate vpn pid =
      .ok { pfn := (s.tlb.get k).pfn, hit := true, slot := k, fill := .none, victim := none }
        { s with tlb := s.tlb.hitTouch s.params k } := by
  simp only [State.translate, h, Tlb.hitTouch_pfn]

/-- An access that passes its checks and resolves its address does what `f` does there. -/
theorem State.perform_access_of_ok {s t : State} {gate inRange : Bool} {va : VirtAddr} {pid : Pid} {a : Access}
    {pa : Nat} {f : Access → Nat → State → Result} (hh : s.halted = false) (hg : gate = true) (hr : inRange = true)
    (hv : s.virtualToPhysical va pid = .ok a pa t) :
    (s.perform gate inRange fun s => s.access va pid f) = f a pa t :=
  (State.perform_of_ok hh hg hr).trans (State.access_of_ok hv)

/-- Settles O31: the tag's lowest valid slot is a hit, and memory has no word at the address composed from its frame. -/
theorem accessOutsideMemoryStops : Obligations.AccessOutsideMemoryStops := by
  rintro s pid va k i ⟨hh, hconf⟩ hva hvalid hvpn hpid hlowest hout hi
  have hlookup : s.tlb.lookupValid (s.vpnOf va) pid = some k := by
    rw [State.vpnOf_eq hvpn]
    exact Tlb.lookupValid_eq_some_iff.2 ⟨⟨hvalid, rfl, hpid⟩, hlowest⟩
  have hresolved := State.virtualToPhysical_eq_ok_iff.2 ⟨State.translate_hit hlookup, rfl⟩
  have hrange : s.vaInRange va = true := decide_eq_true hva
  have hnoWord : ¬ State.hasWord { s with tlb := s.tlb.hitTouch s.params k }
      (s.physAddr (s.tlb.get k).pfn (s.offsetOf va)) = true :=
    fun hw => absurd (State.lt_memWords_of_hasWord hw) (not_lt.2 hout)
  rcases hi with rfl | rfl
  · calc exec (.load pid va) s = _ := execLoad_eq_access pid va s
      _ = _ := State.perform_access_of_ok hh hconf hrange hresolved
      _ = _ := if_neg hnoWord
  · calc exec (.store pid va) s = _ := execStore_eq_access pid va s
      _ = _ := State.perform_access_of_ok hh hconf hrange hresolved
      _ = _ := if_neg hnoWord

end Sys2Proof.Machine

/-! What memory and the page tables keep: a word until a STORE at its address (20_memory.md R36), and a process's page
table whatever the other processes do (R27). -/
namespace Sys2Proof.Machine

/-! ### The other processes' page tables -/

/-- Settles O42: of these commands MAP and UNMAP alone write the page tables, and each writes one entry of its own
process. -/
theorem otherProcessesKeepPageTables : Obligations.OtherProcessesKeepPageTables := by
  intro s t i pid q v h hq hi
  rcases exec_eq_next h with ⟨e, -, rfl⟩ | ⟨-, -, -, hd⟩
  · rw [s.raise_pageTables e]
  rcases hi with ⟨vpn, pfn, rfl⟩ | ⟨vpn, rfl⟩ | ⟨va, rfl⟩ | ⟨va, rfl⟩ | ⟨va, rfl⟩ | ⟨vpn, rfl⟩
  · cases hd
    exact (s.pageTables.ptLookup_ptMap pid q vpn v pfn).trans (if_neg fun h => hq h.1)
  · cases hd
    exact (s.pageTables.ptLookup_ptUnmap pid q vpn v).trans (if_neg fun h => hq h.1)
  all_goals cases hd; rfl

/-! ### A LOAD after a STORE -/

/-- Settles O33: both addresses lie inside memory, so equal `resp.pa` fields are one address, which the LOAD reads as the
STORE left it. -/
theorem loadAfterStoreReturnsWord : Obligations.LoadAfterStoreReturnsWord := by
  intro s t u pid pid' va va' hc hstore htok hload huok hpa
  cases completes_of_status_ok hstore htok with
  | @store _ _ a pa w _ hw =>
    cases completes_of_status_ok hload huok with
    | @load _ _ a' pa' w' _ hw' =>
      have hlt : pa < s.memWords := State.lt_memWords_of_hasWord hw
      have hlt' : pa' < s.memWords := State.lt_memWords_of_hasWord hw'
      have heq : pa' = pa := by
        rw [← State.toNat_ofNat_of_lt_memWords hc hlt, ← State.toNat_ofNat_of_lt_memWords hc hlt']
        exact congrArg BitVec.toNat (by simpa using hpa)
      exact (State.memRead_memWrite { s with tlb := w } pa pa' s.din).trans (if_pos heq)

/-! ### A word over a run -/

/-- What a step that goes on did: nothing, a reset, or one command word, answered with an error status or performed. -/
theorem step_eq_next {s t : State} (h : step s = .next t) :
    (s.port = [] ∧ t = s) ∨
      (∃ rest, s.port = .reset :: rest ∧ t = { s with port := rest }.restart) ∨
      ∃ cw d rest, s.port = .command cw d :: rest ∧
        (AnswersError (s.latch d rest) t ∨ ∃ i, decode cw = .command i ∧ exec i (s.latch d rest) = .next t) := by
  rcases step_cases s with ⟨hp, hs⟩ | ⟨rest, hp, hs⟩ |
    ⟨cw, d, rest, hp, ⟨-, hs⟩ | ⟨-, -, hs⟩ | ⟨-, i, hdec, hs⟩⟩ <;> rw [hs] at h
  · exact .inl ⟨hp, (Host.Outcome.next.inj h).symm⟩
  · exact .inr (.inl ⟨rest, hp, (Host.Outcome.next.inj h).symm⟩)
  · exact .inr (.inr ⟨cw, d, rest, hp, .inl ⟨.halted, by decide, (Host.Outcome.next.inj h).symm⟩⟩)
  · exact .inr (.inr ⟨cw, d, rest, hp, .inl ⟨.illegalCommand, by decide, (Host.Outcome.next.inj h).symm⟩⟩)
  · exact .inr (.inr ⟨cw, d, rest, hp, .inr ⟨i, hdec, h⟩⟩)

theorem State.SameConfiguration.configLegal {s t : State} (h : s.SameConfiguration t) (hc : s.ConfigLegal) :
    t.ConfigLegal := by
  obtain ⟨-, hoff, hpfn, hvpn⟩ := h
  rwa [State.ConfigLegal, hoff, hpfn, hvpn]

/-- Once configured, the configuration stands until a reset (10_state.md R14, R15). -/
theorem step_keeps_configuration {s t : State} (hconf : s.configured = true)
    (hreset : ∀ rest, s.port ≠ .reset :: rest) (h : step s = .next t) : s.SameConfiguration t := by
  rcases step_eq_next h with ⟨-, rfl⟩ | ⟨rest, hp, -⟩ | ⟨cw, d, rest, -, ⟨e, -, rfl⟩ | ⟨i, -, hexec⟩⟩
  · exact ⟨rfl, rfl, rfl, rfl⟩
  · exact absurd hp (hreset rest)
  · exact (s.latch d rest).sameConfiguration_raise e
  · rcases exec_configuration_cases hexec with hsame | ⟨hunconf, -⟩
    · exact hsame
    · exact absurd (hconf.symm.trans hunconf) (by decide)

/-- On a configured core a command leaves a word as it was, or it is a STORE that answers OK with the word's address. -/
theorem exec_memRead_cases {i : Instr} {s t : State} (hconf : s.configured = true) (h : exec i s = .next t) (a : Nat) :
    t.memRead a = s.memRead a ∨
      ((∃ pid va, i = .store pid va) ∧ t.resp.status = .ok ∧ s.hasWord a = true ∧ t.resp.pa = BitVec.ofNat 16 a) := by
  rcases exec_eq_next h with ⟨e, -, rfl⟩ | ⟨-, hg, -, hd⟩
  · exact .inl (by rw [State.memRead, s.raise_mem e, State.memRead])
  cases hd with
  | define => simp [State.gateOpen, hconf] at hg
  | @store pid va acc pa w _ hw =>
    by_cases ha : a = pa
    · subst ha
      exact .inr ⟨⟨pid, va, rfl⟩, by simp, hw, by simp⟩
    · exact .inl ((State.memRead_memWrite { s with tlb := w } pa a s.din).trans (if_neg ha))
  | map | unmap | load | xlate | rdtlb | rdpte => exact .inl rfl

/-- One step of a configured core, no reset and no STORE at the address, keeps the word (20_memory.md R36). -/
theorem step_keeps_word {s t : State} {a : Nat} (hc : s.ConfigLegal) (hconf : s.configured = true)
    (hreset : ∀ rest, s.port ≠ .reset :: rest) (hstore : ¬StoresTo s t a) (h : step s = .next t) :
    t.memRead a = s.memRead a := by
  rcases step_eq_next h with ⟨-, rfl⟩ | ⟨rest, hp, -⟩ | ⟨cw, d, rest, hp, ⟨e, -, rfl⟩ | ⟨i, hdec, hexec⟩⟩
  · rfl
  · exact absurd hp (hreset rest)
  · rw [State.memRead, State.raise_mem, State.latch_mem, State.memRead]
  · rcases exec_memRead_cases (s := s.latch d rest) hconf hexec a with hkept | ⟨⟨pid, va, rfl⟩, hok, hw, hpa⟩
    · exact hkept
    · have hlt : a < s.memWords := State.lt_memWords_of_hasWord hw
      have hpa' : t.resp.pa.toNat = a := by rw [hpa, State.toNat_ofNat_of_lt_memWords hc hlt]
      exact absurd ⟨cw, d, rest, pid, va, hp, hdec, hok, hpa'⟩ hstore

/-- Every step of a run keeps the configuration, and with it the premises of `step_keeps_word`. -/
theorem run_keeps_word (n : Nat) {s t : State} {a : Nat} (hc : s.ConfigLegal) (hconf : s.configured = true)
    (hrun : Sys2Proof.core.run n s = .next t)
    (hsteps : ∀ k, k < n → ∀ u v : State, Sys2Proof.core.run k s = .next u → step u = .next v →
      (∀ rest, u.port ≠ .reset :: rest) ∧ ¬StoresTo u v a) :
    t.memRead a = s.memRead a := by
  induction n generalizing s with
  | zero =>
    obtain rfl := Host.Outcome.next.inj hrun
    rfl
  | succ n ih =>
    obtain ⟨u, hstep, hrest⟩ := core_run_succ_eq_next hrun
    obtain ⟨hreset, hstore⟩ := hsteps 0 n.succ_pos s u rfl hstep
    have hsame : s.SameConfiguration u := step_keeps_configuration hconf hreset hstep
    have htail : t.memRead a = u.memRead a := by
      refine ih (hsame.configLegal hc) (hsame.1.trans hconf) hrest fun k hk v w hv hw => ?_
      exact hsteps (k + 1) (Nat.succ_lt_succ hk) v w ((core_run_succ hstep).trans hv) hw
    exact htail.trans (step_keeps_word hc hconf hreset hstore hstep)

/-- Settles O34: of the invariant a run needs the legal configuration alone, with which `resp.pa` names the address that a
STORE writes. -/
theorem wordKeptUntilStored : Obligations.WordKeptUntilStored := by
  rintro n s t a ⟨-, hc, -, -, -, -, -, -, -, -⟩ hconf hrun hsteps
  exact run_keeps_word n hc hconf hrun hsteps

end Sys2Proof.Machine

/-! Command words as fields, and what the decoder answers on them (30_encoding.md R42, R43, R45). -/
namespace Sys2Proof

/-! ### The fields of a word -/

@[simp] theorem opField_commandWord (op : BitVec 4) (pid : Pid) (opnd : BitVec 16) :
    opField (commandWord op pid opnd) = op := by
  rw [opField, commandWord, BitVec.extractLsb'_append_eq_of_le (by decide),
    BitVec.extractLsb'_append_eq_of_le (by decide), BitVec.extractLsb'_append_eq_left]

@[simp] theorem pidField_commandWord (op : BitVec 4) (pid : Pid) (opnd : BitVec 16) :
    pidField (commandWord op pid opnd) = pid := by
  rw [pidField, commandWord, BitVec.extractLsb'_append_eq_of_le (by decide),
    BitVec.extractLsb'_append_eq_of_le (by decide), BitVec.extractLsb'_append_eq_right]

@[simp] theorem rsvField_commandWord (op : BitVec 4) (pid : Pid) (opnd : BitVec 16) :
    rsvField (commandWord op pid opnd) = 0 := by
  rw [rsvField, commandWord, BitVec.extractLsb'_append_eq_of_le (by decide), BitVec.extractLsb'_append_eq_right]

/-- Bits 15:0 are OPND. -/
theorem extractLsb'_commandWord {lo n : Nat} (h : lo + n ≤ 16) (op : BitVec 4) (pid : Pid) (opnd : BitVec 16) :
    (commandWord op pid opnd).extractLsb' lo n = opnd.extractLsb' lo n :=
  BitVec.extractLsb'_append_eq_of_add_le h

/-- A word whose RSV is 0 is made of its OP, PID and OPND. -/
theorem commandWord_fields {cw : CommandWord} (h : rsvField cw = 0) :
    commandWord (opField cw) (pidField cw) (cw.extractLsb' 0 16) = cw := by
  have hOpPid : opField cw ++ pidField cw = cw.extractLsb' 26 6 :=
    BitVec.extractLsb'_append_extractLsb'_eq_extractLsb' rfl
  have hRsv : cw.extractLsb' 26 6 ++ rsvField cw = cw.extractLsb' 16 16 :=
    BitVec.extractLsb'_append_extractLsb'_eq_extractLsb' rfl
  have hOpnd : cw.extractLsb' 16 16 ++ cw.extractLsb' 0 16 = cw.extractLsb' 0 32 :=
    BitVec.extractLsb'_append_extractLsb'_eq_extractLsb' rfl
  rw [commandWord, hOpPid, ← h, hRsv, hOpnd, BitVec.extractLsb'_eq_self]

/-- A word put together from two carries the upper one above the lower one's bits. -/
theorem append_toNat_eq_add {m n : Nat} (x : BitVec m) (y : BitVec n) : (x ++ y).toNat = x.toNat * 2 ^ n + y.toNat := by
  rw [BitVec.toNat_append, ← Nat.shiftLeft_add_eq_or_of_lt y.isLt, Nat.shiftLeft_eq]

theorem commandWord_toNat (op : BitVec 4) (pid : Pid) (opnd : BitVec 16) :
    (commandWord op pid opnd).toNat = op.toNat * 2 ^ 28 + pid.toNat * 2 ^ 26 + opnd.toNat := by
  simp only [commandWord, append_toNat_eq_add, BitVec.toNat_zero, BitVec.ofNat_eq_ofNat]
  omega

/-! ### The decoder on the fields of a word -/

theorem Decoded.ifZero_of_eq {n : Nat} {z : BitVec n} (h : z = 0) (i : Instr) : Decoded.ifZero z i = .command i :=
  if_pos h

theorem Decoded.ifZero_of_ne {n : Nat} {z : BitVec n} (h : z ≠ 0) (i : Instr) :
    Decoded.ifZero z i = .illegal .nonzeroOperandBits := if_neg h

theorem Decoded.ifZero_eq_command_iff {n : Nat} {z : BitVec n} {i j : Instr} :
    Decoded.ifZero z i = .command j ↔ z = 0 ∧ i = j := by
  by_cases hz : z = 0
  · rw [Decoded.ifZero_of_eq hz]
    simp [hz]
  · rw [Decoded.ifZero_of_ne hz]
    exact ⟨nofun, fun h => absurd h.1 hz⟩

theorem Decoded.ifZero_illegal_iff {n : Nat} {z : BitVec n} {i : Instr} :
    (∃ why, Decoded.ifZero z i = .illegal why) ↔ z ≠ 0 := by
  by_cases hz : z = 0
  · rw [Decoded.ifZero_of_eq hz]
    simp [hz]
  · exact ⟨fun _ => hz, fun _ => ⟨_, Decoded.ifZero_of_ne hz i⟩⟩

section
variable {cw : CommandWord}

theorem decodeOperands_define (h : opField cw = 1) : decodeOperands cw =
    if pidField cw ≠ 0 then .illegal .nonzeroPid
    else .ifZero (cw.extractLsb' 12 4)
      (.define (cw.extractLsb' 8 4) (cw.extractLsb' 4 4) (cw.extractLsb' 0 4)) := by
  simp [decodeOperands, h]

theorem decodeOperands_map (h : opField cw = 2) :
    decodeOperands cw = .command (.map (pidField cw) (vpnOperand cw) (pfnOperand cw)) := by
  simp [decodeOperands, h]

theorem decodeOperands_unmap (h : opField cw = 3) :
    decodeOperands cw = .ifZero (pfnOperand cw) (.unmap (pidField cw) (vpnOperand cw)) := by
  simp [decodeOperands, h, pfnOperand]

theorem decodeOperands_load (h : opField cw = 4) :
    decodeOperands cw = .command (.load (pidField cw) (vaOperand cw)) := by
  simp [decodeOperands, h]

theorem decodeOperands_store (h : opField cw = 5) :
    decodeOperands cw = .command (.store (pidField cw) (vaOperand cw)) := by
  simp [decodeOperands, h]

theorem decodeOperands_xlate (h : opField cw = 6) :
    decodeOperands cw = .command (.xlate (pidField cw) (vaOperand cw)) := by
  simp [decodeOperands, h]

theorem decodeOperands_rdtlb (h : opField cw = 7) : decodeOperands cw =
    if pidField cw ≠ 0 then .illegal .nonzeroPid
    else .ifZero (cw.extractLsb' 3 13) (.rdtlb (cw.extractLsb' 0 3).toFin) := by
  simp [decodeOperands, h]

theorem decodeOperands_rdpte (h : opField cw = 8) :
    decodeOperands cw = .ifZero (pfnOperand cw) (.rdpte (pidField cw) (vpnOperand cw)) := by
  simp [decodeOperands, h, pfnOperand]

/-- R45's first check fails. -/
def OpReserved (cw : CommandWord) : Prop := (opField cw).toNat = 0 ∨ 8 < (opField cw).toNat

theorem opField_cases (h : ¬OpReserved cw) :
    opField cw = 1 ∨ opField cw = 2 ∨ opField cw = 3 ∨ opField cw = 4 ∨
      opField cw = 5 ∨ opField cw = 6 ∨ opField cw = 7 ∨ opField cw = 8 := by
  unfold OpReserved at h
  generalize opField cw = op at h ⊢
  revert op
  decide

theorem decode_of_opReserved (h : OpReserved cw) : decode cw = .illegal .reservedOpcode := if_pos h

theorem decode_reservedField (hop : ¬OpReserved cw) (hrsv : rsvField cw ≠ 0) :
    decode cw = .illegal .reservedField := (if_neg hop).trans (if_pos hrsv)

theorem decode_eq_decodeOperands (hop : ¬OpReserved cw) (hrsv : rsvField cw = 0) : decode cw = decodeOperands cw :=
  (if_neg hop).trans (if_neg (not_not.2 hrsv))

/-- A word decodes to a command only behind the checks of OP and RSV. -/
theorem decodeOperands_of_decode {i : Instr} (h : decode cw = .command i) :
    ¬OpReserved cw ∧ rsvField cw = 0 ∧ decodeOperands cw = .command i := by
  by_cases hop : OpReserved cw
  · simp [decode_of_opReserved hop] at h
  by_cases hrsv : rsvField cw = 0
  · exact ⟨hop, hrsv, (decode_eq_decodeOperands hop hrsv).symm.trans h⟩
  · simp [decode_reservedField hop hrsv] at h

end

/-! ### Decoding an encoded command -/

theorem decode_commandWord {op : BitVec 4} (hop : ¬(op.toNat = 0 ∨ 8 < op.toNat)) (pid : Pid) (opnd : BitVec 16) :
    decode (commandWord op pid opnd) = decodeOperands (commandWord op pid opnd) :=
  decode_eq_decodeOperands (by rwa [OpReserved, opField_commandWord]) (rsvField_commandWord op pid opnd)

@[simp] theorem vpnOperand_commandWord (op : BitVec 4) (pid : Pid) (vpn : Vpn) (low : BitVec 8) :
    vpnOperand (commandWord op pid (vpn ++ low)) = vpn :=
  (extractLsb'_commandWord (by decide) op pid _).trans BitVec.extractLsb'_append_eq_left

@[simp] theorem pfnOperand_commandWord (op : BitVec 4) (pid : Pid) (vpn : Vpn) (low : BitVec 8) :
    pfnOperand (commandWord op pid (vpn ++ low)) = low :=
  (extractLsb'_commandWord (by decide) op pid _).trans BitVec.extractLsb'_append_eq_right

@[simp] theorem vaOperand_commandWord (op : BitVec 4) (pid : Pid) (va : VirtAddr) :
    vaOperand (commandWord op pid va) = va :=
  (extractLsb'_commandWord (by decide) op pid va).trans BitVec.extractLsb'_eq_self

/-- DEFINE's OPND (30_encoding.md R43) gives its operands back, and 0 above them. -/
theorem extractLsb'_sizeOperands (off pfnb vpnb : SizeField) :
    ((0 : BitVec 4) ++ off ++ pfnb ++ vpnb).extractLsb' 12 4 = 0 ∧
    ((0 : BitVec 4) ++ off ++ pfnb ++ vpnb).extractLsb' 8 4 = off ∧
    ((0 : BitVec 4) ++ off ++ pfnb ++ vpnb).extractLsb' 4 4 = pfnb ∧
    ((0 : BitVec 4) ++ off ++ pfnb ++ vpnb).extractLsb' 0 4 = vpnb := by
  refine ⟨?_, ?_, ?_, BitVec.extractLsb'_append_eq_right⟩
  · rw [BitVec.extractLsb'_append_eq_of_le (by decide), BitVec.extractLsb'_append_eq_of_le (by decide),
      BitVec.extractLsb'_append_eq_left]
  · rw [BitVec.extractLsb'_append_eq_of_le (by decide), BitVec.extractLsb'_append_eq_of_le (by decide),
      BitVec.extractLsb'_append_eq_right]
  · rw [BitVec.extractLsb'_append_eq_of_le (by decide), BitVec.extractLsb'_append_eq_right]

theorem decode_encode_define (off pfnb vpnb : SizeField) :
    decode (encode (.define off pfnb vpnb)) = .command (.define off pfnb vpnb) := by
  obtain ⟨hzero, hoff, hpfnb, hvpnb⟩ := extractLsb'_sizeOperands off pfnb vpnb
  rw [encode, decode_commandWord (by decide), decodeOperands_define (opField_commandWord ..),
    if_neg (not_not.2 (pidField_commandWord ..))]
  simp only [extractLsb'_commandWord, Nat.reduceAdd, Nat.reduceLeDiff, hzero, hoff, hpfnb, hvpnb]
  exact Decoded.ifZero_of_eq rfl _

theorem decode_encode_rdtlb (slot : Slot) : decode (encode (.rdtlb slot)) = .command (.rdtlb slot) := by
  revert slot
  decide

/-- Settles O9: an encoded word has the opcode of its command and RSV 0, and each operand stands where its layout
reads it. -/
theorem decodeOfEncode : Obligations.DecodeOfEncode := by
  intro i
  cases i with
  | define off pfnb vpnb => exact decode_encode_define off pfnb vpnb
  | map pid vpn pfn =>
    rw [encode, decode_commandWord (by decide), decodeOperands_map (opField_commandWord ..)]
    simp
  | unmap pid vpn =>
    rw [encode, decode_commandWord (by decide), decodeOperands_unmap (opField_commandWord ..)]
    simp [Decoded.ifZero_of_eq]
  | load pid va =>
    rw [encode, decode_commandWord (by decide), decodeOperands_load (opField_commandWord ..)]
    simp
  | store pid va =>
    rw [encode, decode_commandWord (by decide), decodeOperands_store (opField_commandWord ..)]
    simp
  | xlate pid va =>
    rw [encode, decode_commandWord (by decide), decodeOperands_xlate (opField_commandWord ..)]
    simp
  | rdtlb slot => exact decode_encode_rdtlb slot
  | rdpte pid vpn =>
    rw [encode, decode_commandWord (by decide), decodeOperands_rdpte (opField_commandWord ..)]
    simp [Decoded.ifZero_of_eq]

/-! ### A word that decodes is the encoding of its command -/

/-- A word with RSV 0 is put together from its OP, PID and OPND. -/
theorem commandWord_eq {cw : CommandWord} {op : BitVec 4} {pid : Pid} {opnd : BitVec 16} (hrsv : rsvField cw = 0)
    (hop : opField cw = op) (hpid : pidField cw = pid) (hopnd : opnd = vaOperand cw) :
    commandWord op pid opnd = cw := by
  rw [← hop, ← hpid, hopnd]
  exact commandWord_fields hrsv

theorem vpnOperand_append_pfnOperand (cw : CommandWord) : vpnOperand cw ++ pfnOperand cw = vaOperand cw :=
  BitVec.extractLsb'_append_extractLsb'_eq_extractLsb' rfl

theorem vpnOperand_append_zero {cw : CommandWord} (h : pfnOperand cw = 0) :
    vpnOperand cw ++ (0 : BitVec 8) = vaOperand cw := by
  rw [← h, vpnOperand_append_pfnOperand]

theorem sizeOperands_append {cw : CommandWord} (h : cw.extractLsb' 12 4 = 0) :
    (0 : BitVec 4) ++ cw.extractLsb' 8 4 ++ cw.extractLsb' 4 4 ++ cw.extractLsb' 0 4 = vaOperand cw := by
  have hoff : cw.extractLsb' 12 4 ++ cw.extractLsb' 8 4 = cw.extractLsb' 8 8 :=
    BitVec.extractLsb'_append_extractLsb'_eq_extractLsb' rfl
  have hpfnb : cw.extractLsb' 8 8 ++ cw.extractLsb' 4 4 = cw.extractLsb' 4 12 :=
    BitVec.extractLsb'_append_extractLsb'_eq_extractLsb' rfl
  rw [← h, hoff, hpfnb]
  exact BitVec.extractLsb'_append_extractLsb'_eq_extractLsb' rfl

theorem slotOperand_append {cw : CommandWord} (h : cw.extractLsb' 3 13 = 0) :
    (0 : BitVec 13) ++ (BitVec.ofFin (cw.extractLsb' 0 3).toFin : BitVec 3) = vaOperand cw := by
  rw [← h]
  exact BitVec.extractLsb'_append_extractLsb'_eq_extractLsb' rfl

theorem encode_of_decode {cw : CommandWord} {i : Instr} (h : decode cw = .command i) : encode i = cw := by
  obtain ⟨hres, hrsv, h⟩ := decodeOperands_of_decode h
  rcases opField_cases hres with hop | hop | hop | hop | hop | hop | hop | hop
  · rw [decodeOperands_define hop] at h
    split at h
    · cases h
    next hpid =>
      obtain ⟨hz, rfl⟩ := Decoded.ifZero_eq_command_iff.1 h
      exact commandWord_eq hrsv hop (not_not.1 hpid) (sizeOperands_append hz)
  · rw [decodeOperands_map hop] at h
    cases h
    exact commandWord_eq hrsv hop rfl (vpnOperand_append_pfnOperand cw)
  · rw [decodeOperands_unmap hop] at h
    obtain ⟨hz, rfl⟩ := Decoded.ifZero_eq_command_iff.1 h
    exact commandWord_eq hrsv hop rfl (vpnOperand_append_zero hz)
  · rw [decodeOperands_load hop] at h
    cases h
    exact commandWord_eq hrsv hop rfl rfl
  · rw [decodeOperands_store hop] at h
    cases h
    exact commandWord_eq hrsv hop rfl rfl
  · rw [decodeOperands_xlate hop] at h
    cases h
    exact commandWord_eq hrsv hop rfl rfl
  · rw [decodeOperands_rdtlb hop] at h
    split at h
    · cases h
    next hpid =>
      obtain ⟨hz, rfl⟩ := Decoded.ifZero_eq_command_iff.1 h
      exact commandWord_eq hrsv hop (not_not.1 hpid) (slotOperand_append hz)
  · rw [decodeOperands_rdpte hop] at h
    obtain ⟨hz, rfl⟩ := Decoded.ifZero_eq_command_iff.1 h
    exact commandWord_eq hrsv hop rfl (vpnOperand_append_zero hz)

/-- The decoder and the encoder are inverse to each other on the words that decode. -/
theorem decode_eq_command_iff {cw : CommandWord} {i : Instr} : decode cw = .command i ↔ encode i = cw :=
  ⟨encode_of_decode, fun h => h ▸ decodeOfEncode i⟩

/-- Settles O8: the word is the encoding of its command, whose fields do not overlap. -/
theorem wordsCarryFieldsInPlace : Obligations.WordsCarryFieldsInPlace := by
  intro cw i h
  obtain rfl := encode_of_decode h
  cases i with
  | define off pfnb vpnb =>
    rw [encode, commandWord_toNat, append_toNat_eq_add, append_toNat_eq_add, append_toNat_eq_add]
    simp only [BitVec.ofNat_eq_ofNat, BitVec.toNat_ofNat]
    omega
  | map | unmap | rdpte =>
    rw [encode, commandWord_toNat, append_toNat_eq_add]
    simp [Nat.add_assoc]
  | load | store | xlate => simp [encode, commandWord_toNat]
  | rdtlb slot =>
    rw [encode, commandWord_toNat, append_toNat_eq_add]
    simp

/-! ### R45's checks -/

/-- One of R45's last four checks fails: PID is not 0 where it must be, or an operand bit. -/
def FailsOperandCheck (cw : CommandWord) : Prop :=
  (((opField cw).toNat = 1 ∨ (opField cw).toNat = 7) ∧ pidField cw ≠ 0) ∨
  ((opField cw).toNat = 1 ∧ cw.extractLsb' 12 4 ≠ 0) ∨
  (((opField cw).toNat = 3 ∨ (opField cw).toNat = 8) ∧ pfnOperand cw ≠ 0) ∨
  ((opField cw).toNat = 7 ∧ cw.extractLsb' 3 13 ≠ 0)

/-- One of R45's six checks fails (30_encoding.md R45). -/
def FailsCheck (cw : CommandWord) : Prop := OpReserved cw ∨ rsvField cw ≠ 0 ∨ FailsOperandCheck cw

/-- DEFINE and RDTLB check PID before the operand bits that must be 0. -/
theorem ifPidZero_illegal_iff {n : Nat} {pid : Pid} {z : BitVec n} {i : Instr} :
    (∃ why, (if pid ≠ 0 then .illegal .nonzeroPid else Decoded.ifZero z i) = .illegal why) ↔ pid ≠ 0 ∨ z ≠ 0 := by
  by_cases hpid : pid = 0
  · rw [if_neg (not_not.2 hpid), Decoded.ifZero_illegal_iff]
    exact (or_iff_right (not_not.2 hpid)).symm
  · rw [if_pos hpid]
    exact ⟨fun _ => .inl hpid, fun _ => ⟨_, rfl⟩⟩

/-- Behind the checks of OP and RSV, each opcode makes the checks of its own layout (30_encoding.md R43). -/
theorem decodeOperands_illegal_iff {cw : CommandWord} (hres : ¬OpReserved cw) :
    (∃ why, decodeOperands cw = .illegal why) ↔ FailsOperandCheck cw := by
  unfold FailsOperandCheck
  rcases opField_cases hres with hop | hop | hop | hop | hop | hop | hop | hop
  · rw [decodeOperands_define hop, ifPidZero_illegal_iff]
    simp [hop]
  · rw [decodeOperands_map hop]
    simp [hop]
  · rw [decodeOperands_unmap hop, Decoded.ifZero_illegal_iff]
    simp [hop]
  · rw [decodeOperands_load hop]
    simp [hop]
  · rw [decodeOperands_store hop]
    simp [hop]
  · rw [decodeOperands_xlate hop]
    simp [hop]
  · rw [decodeOperands_rdtlb hop, ifPidZero_illegal_iff]
    simp [hop]
  · rw [decodeOperands_rdpte hop, Decoded.ifZero_illegal_iff]
    simp [hop]

theorem decode_illegal_iff (cw : CommandWord) : (∃ why, decode cw = .illegal why) ↔ FailsCheck cw := by
  unfold FailsCheck
  by_cases hop : OpReserved cw
  · exact ⟨fun _ => .inl hop, fun _ => ⟨_, decode_of_opReserved hop⟩⟩
  by_cases hrsv : rsvField cw = 0
  · rw [decode_eq_decodeOperands hop hrsv, decodeOperands_illegal_iff hop, or_iff_right hop,
      or_iff_right (not_not.2 hrsv)]
  · exact ⟨fun _ => .inr (.inl hrsv), fun _ => ⟨_, decode_reservedField hop hrsv⟩⟩

theorem exists_command_iff (cw : CommandWord) : (∃ i, decode cw = .command i) ↔ ¬FailsCheck cw := by
  rw [← decode_illegal_iff]
  cases decode cw <;> simp

/-! ### The opcode table -/

/-- The command's word belongs to the command's row, which is a row of the table. -/
theorem encode_in_row (i : Instr) : i.row ∈ opcodeTable ∧ i.row.holds (encode i) = true := by
  cases i with
  | define off pfnb vpnb => exact Laws.EncodesIntoItsRow.define off pfnb vpnb
  | map pid vpn pfn => exact Laws.EncodesIntoItsRow.map pid vpn pfn
  | unmap pid vpn => exact Laws.EncodesIntoItsRow.unmap pid vpn
  | load pid va => exact Laws.EncodesIntoItsRow.load pid va
  | store pid va => exact Laws.EncodesIntoItsRow.store pid va
  | xlate pid va => exact Laws.EncodesIntoItsRow.xlate pid va
  | rdtlb slot => exact Laws.EncodesIntoItsRow.rdtlb slot
  | rdpte pid vpn => exact Laws.EncodesIntoItsRow.rdpte pid vpn

/-- The row's mask covers the `n` bits from `lo` up, and its match holds `v` there. -/
abbrev OpcodeRow.Fixes (r : OpcodeRow) (lo : Nat) {n : Nat} (v : BitVec n) : Prop :=
  r.mask.extractLsb' lo n = BitVec.allOnes n ∧ r.pattern.extractLsb' lo n = v

theorem OpcodeRow.extractLsb'_of_holds {r : OpcodeRow} {cw : CommandWord} {lo n : Nat} {v : BitVec n}
    (hr : r.Fixes lo v) (h : r.holds cw = true) : cw.extractLsb' lo n = v := by
  obtain ⟨hmask, hpattern⟩ := hr
  have hbits : cw &&& r.mask = r.pattern := beq_iff_eq.1 h
  rw [← hpattern, ← hbits, BitVec.extractLsb'_and, hmask, BitVec.and_allOnes]

/-- The opcode that the row matches. -/
def OpcodeRow.op (r : OpcodeRow) : BitVec 4 := r.pattern.extractLsb' 28 4

theorem opField_of_holds {r : OpcodeRow} {cw : CommandWord} (hr : r ∈ opcodeTable) (h : r.holds cw = true) :
    opField cw = r.op := by
  have hfixes : ∀ r ∈ opcodeTable, r.mask.extractLsb' 28 4 = BitVec.allOnes 4 := by decide
  exact OpcodeRow.extractLsb'_of_holds ⟨hfixes r hr, rfl⟩ h

/-- Two rows of the table that match one word have its opcode, and no two rows share one. -/
theorem row_unique {cw : CommandWord} {r r' : OpcodeRow} (hr : r ∈ opcodeTable) (hr' : r' ∈ opcodeTable)
    (h : r.holds cw = true) (h' : r'.holds cw = true) : r = r' := by
  have hop : r.op = r'.op := (opField_of_holds hr h).symm.trans (opField_of_holds hr' h')
  have hinj : ∀ r ∈ opcodeTable, ∀ r' ∈ opcodeTable, r.op = r'.op → r = r' := by decide
  exact hinj r hr r' hr' hop

/-- A word that matches a row passes R45's checks: the row's mask covers each field that its opcode checks, and its match is
0 there. -/
theorem not_failsCheck_of_holds {cw : CommandWord} {r : OpcodeRow} (hr : r ∈ opcodeTable) (h : r.holds cw = true) :
    ¬FailsCheck cw := by
  have hrsv : ∀ r ∈ opcodeTable, r.Fixes 16 (0 : BitVec 10) := by decide
  have hpid : ∀ r ∈ opcodeTable, r.op.toNat = 1 ∨ r.op.toNat = 7 → r.Fixes 26 (0 : BitVec 2) := by decide
  have hdefine : ∀ r ∈ opcodeTable, r.op.toNat = 1 → r.Fixes 12 (0 : BitVec 4) := by decide
  have hlow : ∀ r ∈ opcodeTable, r.op.toNat = 3 ∨ r.op.toNat = 8 → r.Fixes 0 (0 : BitVec 8) := by decide
  have hrdtlb : ∀ r ∈ opcodeTable, r.op.toNat = 7 → r.Fixes 3 (0 : BitVec 13) := by decide
  have hres : ∀ r ∈ opcodeTable, ¬(r.op.toNat = 0 ∨ 8 < r.op.toNat) := by decide
  unfold FailsCheck OpReserved FailsOperandCheck
  rw [opField_of_holds hr h]
  rintro (hf | hf | ⟨hop, hf⟩ | ⟨hop, hf⟩ | ⟨hop, hf⟩ | ⟨hop, hf⟩)
  · exact hres r hr hf
  · exact hf (OpcodeRow.extractLsb'_of_holds (hrsv r hr) h)
  · exact hf (OpcodeRow.extractLsb'_of_holds (hpid r hr hop) h)
  · exact hf (OpcodeRow.extractLsb'_of_holds (hdefine r hr hop) h)
  · exact hf (OpcodeRow.extractLsb'_of_holds (hlow r hr hop) h)
  · exact hf (OpcodeRow.extractLsb'_of_holds (hrdtlb r hr hop) h)

/-- Settles O10: a word that decodes is its command's encoding, which is in the command's row; a word in a row passes R45's
checks. -/
theorem decoderFollowsTable : Obligations.DecoderFollowsTable := by
  refine ⟨decode_illegal_iff, ?_, ?_, fun cw r hr r' hr' h h' => row_unique hr hr' h h'⟩
  · intro cw i h
    obtain rfl := encode_of_decode h
    exact ⟨rfl, (encode_in_row i).2⟩
  · intro cw
    constructor
    · rintro ⟨i, h⟩
      obtain rfl := encode_of_decode h
      exact ⟨i.row, encode_in_row i⟩
    · rintro ⟨r, hr, h⟩
      exact (exists_command_iff cw).2 (not_failsCheck_of_holds hr h)

end Sys2Proof

/-! Vector words and assembler lines (30_encoding.md R50). -/
namespace Sys2Proof.Machine

/-- Settles O7: each of the eight words is the encoding of its command, and the ninth has a bit that R43 marks 0. -/
theorem vectorWordsDecode : Obligations.VectorWordsDecode := by
  unfold Obligations.VectorWordsDecode
  simp only [decode_eq_command_iff]
  decide

@[simp] theorem operand_toNat {n : Nat} (x : BitVec n) : operand n x.toNat = some x := by
  simp [operand, x.isLt]

@[simp] theorem operand_slot (slot : Slot) : operand 3 slot.val = some (BitVec.ofFin slot) :=
  operand_toNat (BitVec.ofFin slot : BitVec 3)

/-- A line that presents a command puts a word on the port that decodes to it. -/
theorem decodes_of_presents {line : Option PortEvent} {din : Nat} {i : Instr} (h : line = some (presents din i)) :
    ∃ cw, line = some (.command cw din) ∧ decode cw = .command i :=
  ⟨encode i, h, decodeOfEncode i⟩

/-- Settles O11: operands that fit their fields pass unchanged, so each line presents its command. -/
theorem assembledLinesDecode : Obligations.AssembledLinesDecode := by
  intro off pfnb vpnb pid vpn pfn va data slot
  refine ⟨?_, ?_, ?_, ?_, ?_, ?_, ?_, ?_⟩ <;> apply decodes_of_presents <;> simp [assemble]

end Sys2Proof.Machine

/-! Entry words as numbers (30_encoding.md R52 to R54). -/
namespace Sys2Proof.Machine

theorem bit_lt_two (b : Bool) : bit b < 2 := by cases b <;> decide

/-- Two adjacent fields, the lower one within its width `m`, are one number shifted. -/
theorem shiftLeft_or_shiftLeft {hi lo m : Nat} (h : lo < 2 ^ m) (n : Nat) :
    hi <<< (m + n) ||| lo <<< n = (hi * 2 ^ m + lo) <<< n := by
  rw [Nat.shiftLeft_add, ← Nat.shiftLeft_or_distrib, ← Nat.shiftLeft_add_eq_or_of_lt h, Nat.shiftLeft_eq hi]

/-- The fields of a TLB entry above its age, as one number of 19 bits (30_encoding.md R52). -/
def TlbEntry.tagWord (e : TlbEntry) : Nat :=
  ((e.vpn.toNat * 2 ^ 8 + e.pfn.toNat) * 2 ^ 2 + e.pid.toNat) * 2 + bit e.valid

theorem TlbEntry.tagWord_lt (e : TlbEntry) : e.tagWord < 2 ^ 19 := by
  have hvpn := e.vpn.isLt
  have hpfn := e.pfn.isLt
  have hpid := e.pid.isLt
  have hvalid := bit_lt_two e.valid
  unfold TlbEntry.tagWord
  omega

/-- The age stands below the other fields. -/
theorem encodeTlb_eq {a : Nat} {e : TlbEntry} (h : e.age < 2 ^ a) : encodeTlb a e = e.tagWord * 2 ^ a + e.age := by
  have hvpn : e.vpn.toNat <<< (11 + a) ||| e.pfn.toNat <<< (3 + a) =
      (e.vpn.toNat * 2 ^ 8 + e.pfn.toNat) <<< (3 + a) := by
    rw [show 11 + a = 8 + (3 + a) by omega, shiftLeft_or_shiftLeft e.pfn.isLt]
  have hpid (x : Nat) : x <<< (3 + a) ||| e.pid.toNat <<< (1 + a) = (x * 2 ^ 2 + e.pid.toNat) <<< (1 + a) := by
    rw [show 3 + a = 2 + (1 + a) by omega, shiftLeft_or_shiftLeft e.pid.isLt]
  have hvalid (x : Nat) : x <<< (1 + a) ||| bit e.valid <<< a = (x * 2 + bit e.valid) <<< a :=
    shiftLeft_or_shiftLeft (m := 1) (bit_lt_two e.valid) a
  rw [encodeTlb, hvpn, hpid, hvalid, ← Nat.shiftLeft_add_eq_or_of_lt h, Nat.shiftLeft_eq, TlbEntry.tagWord]

/-- The page-table entry's `present` and `valid` are adjacent fields, and so are `pfn` and `present` (30_encoding.md R53). -/
theorem encodePte_eq {p : Nat} {e : PtEntry} (h : e.present < 2 ^ p) :
    encodePte p e = (e.pfn.toNat * 2 ^ p + e.present) * 2 + bit e.valid := by
  rw [encodePte, Nat.add_comm 1 p, shiftLeft_or_shiftLeft h, ← Nat.shiftLeft_add_eq_or_of_lt (bit_lt_two e.valid),
    Nat.shiftLeft_eq, pow_one]

/-- A number of `m` bits above a number of `n` bits has `m + n` bits. -/
theorem mul_two_pow_add_lt {hi lo m n : Nat} (hhi : hi < 2 ^ m) (hlo : lo < 2 ^ n) : hi * 2 ^ n + lo < 2 ^ (m + n) := by
  rw [Nat.pow_add, Nat.mul_comm hi]
  exact Nat.mul_add_lt_mul_of_lt_of_lt hhi hlo

theorem encodeTlb_lt {a : Nat} {e : TlbEntry} (h : e.age < 2 ^ a) : encodeTlb a e < 2 ^ (19 + a) := by
  rw [encodeTlb_eq h]
  exact mul_two_pow_add_lt e.tagWord_lt h

theorem encodePte_lt {p : Nat} {e : PtEntry} (h : e.present < 2 ^ p) : encodePte p e < 2 ^ (9 + p) := by
  rw [encodePte_eq h, show 9 + p = 8 + p + 1 by omega]
  exact mul_two_pow_add_lt (n := 1) (mul_two_pow_add_lt e.pfn.isLt h) (bit_lt_two e.valid)

/-- Settles O12: the fields do not overlap, so the encoders add them. -/
theorem entryWordsFollowLayout : Obligations.EntryWordsFollowLayout := by
  refine ⟨fun a e h => ⟨?_, encodeTlb_lt h⟩, fun p e h => ⟨?_, encodePte_lt h⟩⟩
  · rw [encodeTlb_eq h, TlbEntry.tagWord, bit]
    ring
  · rw [encodePte_eq h, bit]
    ring

/-- A field within the low `n` bits does not see the bits above them. -/
theorem bitsAt_mod {n lo width : Nat} (h : lo + width ≤ n) (w : Nat) :
    bitsAt (w % 2 ^ n) lo width = bitsAt w lo width := by
  apply Nat.eq_of_testBit_eq
  intro i
  simp only [bitsAt, lowBits, Nat.testBit_mod_two_pow, Nat.testBit_shiftRight]
  by_cases hi : i < width
  · simp [show lo + i < n by omega]
  · simp [hi]

/-- Settles O14: the widths are those of the layout, and every field that a decoder reads lies within them. -/
theorem entryWordsFitTheirWidth : Obligations.EntryWordsFitTheirWidth := by
  refine ⟨fun a e => encodeTlb_lt, fun p e => encodePte_lt, fun a w => ?_, fun p w => ?_⟩
  · have hfield (lo width : Nat) (h : lo + width ≤ 19 + a) := bitsAt_mod h w
    simp only [decodeTlb]
    rw [hfield (11 + a) 8 (by omega), hfield (3 + a) 8 (by omega), hfield (1 + a) 2 (by omega),
      hfield a 1 (by omega), hfield 0 a (by omega)]
  · have hfield (lo width : Nat) (h : lo + width ≤ 9 + p) := bitsAt_mod h w
    simp only [decodePte]
    rw [hfield (1 + p) 8 (by omega), hfield 1 p (by omega), hfield 0 1 (by omega)]

end Sys2Proof.Machine

/-! The Entry Codec both ways (40_codec.md R59), and the readouts that answer its words (R61, R62). -/
namespace Sys2Proof.Machine

/-! ### Fields of a word -/

theorem bitsAt_eq (w lo width : Nat) : bitsAt w lo width = w / 2 ^ lo % 2 ^ width := by
  rw [bitsAt, lowBits, Nat.shiftRight_eq_div_pow]

theorem bitsAt_lt (w lo width : Nat) : bitsAt w lo width < 2 ^ width := Nat.mod_lt _ (Nat.two_pow_pos width)

/-- Two adjacent fields, the upper of `n` bits and the lower of `m`, are one field of `n + m` bits. -/
theorem bitsAt_append (w lo m n : Nat) :
    bitsAt w (m + lo) n * 2 ^ m + bitsAt w lo m = bitsAt w lo (n + m) := by
  have hdiv : w / 2 ^ (m + lo) = w / 2 ^ lo / 2 ^ m := by rw [Nat.div_div_eq_div_mul, ← pow_add, Nat.add_comm m]
  rw [bitsAt_eq, bitsAt_eq, bitsAt_eq, hdiv, Nat.add_comm n, pow_add, Nat.mod_mul, Nat.mul_comm, Nat.add_comm]

/-- A field above the low `m` bits is a field of the part above them. -/
theorem bitsAt_mul_add {hi lo m : Nat} (h : lo < 2 ^ m) (k width : Nat) :
    bitsAt (hi * 2 ^ m + lo) (k + m) width = bitsAt hi k width := by
  have hdiv : (hi * 2 ^ m + lo) / 2 ^ m = hi := by
    rw [Nat.mul_comm, Nat.mul_add_div (Nat.two_pow_pos m), Nat.div_eq_of_lt h, Nat.add_zero]
  rw [bitsAt_eq, Nat.add_comm k, pow_add, ← Nat.div_div_eq_div_mul, hdiv, bitsAt_eq]

/-- The lowest field of a number is what stands below the part above. -/
theorem bitsAt_zero_mul_add {hi lo m : Nat} (h : lo < 2 ^ m) : bitsAt (hi * 2 ^ m + lo) 0 m = lo := by
  rw [bitsAt_eq, pow_zero, Nat.div_one, Nat.mul_add_mod_of_lt h]

theorem bitsAt_zero_of_lt {w width : Nat} (h : w < 2 ^ width) : bitsAt w 0 width = w := by
  rw [bitsAt_eq, pow_zero, Nat.div_one, Nat.mod_eq_of_lt h]

theorem ofNat_bitsAt_toNat (w lo width : Nat) : (BitVec.ofNat width (bitsAt w lo width)).toNat = bitsAt w lo width := by
  rw [BitVec.toNat_ofNat, Nat.mod_eq_of_lt (bitsAt_lt w lo width)]

theorem decide_bit_eq_one (b : Bool) : decide (bit b = 1) = b := by cases b <;> rfl

theorem bit_decide_bitsAt (w lo : Nat) : bit (decide (bitsAt w lo 1 = 1)) = bitsAt w lo 1 := by
  rcases Nat.le_one_iff_eq_zero_or_eq_one.1 (Nat.lt_succ_iff.1 (bitsAt_lt w lo 1)) with h | h <;> rw [h] <;> rfl

/-! ### Decode of encode -/

/-- Each field of a TLB entry stands at its place above the age (30_encoding.md R52). -/
theorem TlbEntry.tagWord_fields (e : TlbEntry) :
    bitsAt e.tagWord 11 8 = e.vpn.toNat ∧ bitsAt e.tagWord 3 8 = e.pfn.toNat ∧
      bitsAt e.tagWord 1 2 = e.pid.toNat ∧ bitsAt e.tagWord 0 1 = bit e.valid := by
  have hvpn := e.vpn.isLt
  have hpfn := e.pfn.isLt
  have hpid := e.pid.isLt
  have hvalid := bit_lt_two e.valid
  simp only [bitsAt_eq, TlbEntry.tagWord]
  omega

theorem decodeTlb_encodeTlb {a : Nat} {e : TlbEntry} (h : e.age < 2 ^ a) : decodeTlb a (encodeTlb a e) = e := by
  obtain ⟨hvpn, hpfn, hpid, hvalid⟩ := e.tagWord_fields
  have habove (k width : Nat) : bitsAt (encodeTlb a e) (k + a) width = bitsAt e.tagWord k width := by
    rw [encodeTlb_eq h, bitsAt_mul_add h]
  have hlowest : bitsAt (encodeTlb a e) a 1 = bitsAt e.tagWord 0 1 := by simpa using habove 0 1
  have hage : bitsAt (encodeTlb a e) 0 a = e.age := by rw [encodeTlb_eq h, bitsAt_zero_mul_add h]
  simp [decodeTlb, habove, hlowest, hvpn, hpfn, hpid, hvalid, hage, decide_bit_eq_one]

theorem decodePte_encodePte {p : Nat} {e : PtEntry} (h : e.present < 2 ^ p) : decodePte p (encodePte p e) = e := by
  have hbit : bit e.valid < 2 ^ 1 := bit_lt_two e.valid
  have hword : encodePte p e = (e.pfn.toNat * 2 ^ p + e.present) * 2 ^ 1 + bit e.valid := encodePte_eq h
  have habove (k width : Nat) :
      bitsAt (encodePte p e) (k + 1) width = bitsAt (e.pfn.toNat * 2 ^ p + e.present) k width := by
    rw [hword, bitsAt_mul_add hbit]
  have hpfn : bitsAt (encodePte p e) (1 + p) 8 = e.pfn.toNat :=
    calc bitsAt (encodePte p e) (1 + p) 8
      _ = bitsAt (e.pfn.toNat * 2 ^ p + e.present) (0 + p) 8 := by rw [Nat.add_comm, habove, Nat.zero_add]
      _ = e.pfn.toNat := by rw [bitsAt_mul_add h, bitsAt_zero_of_lt e.pfn.isLt]
  have hpresent : bitsAt (encodePte p e) 1 p = e.present := (habove 0 p).trans (bitsAt_zero_mul_add h)
  have hvalid : bitsAt (encodePte p e) 0 1 = bit e.valid := by
    rw [hword, bitsAt_zero_mul_add hbit]
  simp [decodePte, hpfn, hpresent, hvalid, decide_bit_eq_one]

/-! ### Encode of decode -/

theorem decodeTlb_age_lt (a w : Nat) : (decodeTlb a w).age < 2 ^ a := bitsAt_lt w 0 a

theorem decodePte_present_lt (p w : Nat) : (decodePte p w).present < 2 ^ p := bitsAt_lt w 1 p

/-- A decoder cuts the word into adjacent fields, and the encoder puts them together again. -/
theorem encodeTlb_decodeTlb (a w : Nat) : encodeTlb a (decodeTlb a w) = w % 2 ^ (19 + a) := by
  have htag : (decodeTlb a w).tagWord = bitsAt w a 19 :=
    calc (decodeTlb a w).tagWord
      _ = ((bitsAt w (11 + a) 8 * 2 ^ 8 + bitsAt w (3 + a) 8) * 2 ^ 2 + bitsAt w (1 + a) 2) * 2 ^ 1 + bitsAt w a 1 := by
        simp only [TlbEntry.tagWord, decodeTlb, ofNat_bitsAt_toNat, bit_decide_bitsAt, pow_one]
      _ = (bitsAt w (3 + a) 16 * 2 ^ 2 + bitsAt w (1 + a) 2) * 2 ^ 1 + bitsAt w a 1 := by
        rw [← bitsAt_append w (3 + a) 8 8, show 8 + (3 + a) = 11 + a by omega]
      _ = bitsAt w (1 + a) 18 * 2 ^ 1 + bitsAt w a 1 := by
        rw [← bitsAt_append w (1 + a) 2 16, show 2 + (1 + a) = 3 + a by omega]
      _ = bitsAt w a 19 := bitsAt_append w a 1 18
  calc encodeTlb a (decodeTlb a w)
    _ = bitsAt w (a + 0) 19 * 2 ^ a + bitsAt w 0 a := by rw [encodeTlb_eq (decodeTlb_age_lt a w), htag]; rfl
    _ = bitsAt w 0 (19 + a) := bitsAt_append w 0 a 19

theorem encodePte_decodePte (p w : Nat) : encodePte p (decodePte p w) = w % 2 ^ (9 + p) :=
  calc encodePte p (decodePte p w)
    _ = (bitsAt w (p + 1) 8 * 2 ^ p + bitsAt w 1 p) * 2 ^ 1 + bitsAt w 0 1 := by
      rw [encodePte_eq (decodePte_present_lt p w), Nat.add_comm p]
      simp only [decodePte, ofNat_bitsAt_toNat, bit_decide_bitsAt, pow_one]
    _ = bitsAt w 1 (8 + p) * 2 ^ 1 + bitsAt w 0 1 := by rw [bitsAt_append]
    _ = bitsAt w 0 (8 + p + 1) := bitsAt_append w 0 1 (8 + p)
    _ = w % 2 ^ (9 + p) := by rw [Nat.add_right_comm]; rfl

/-- Settles O13: a decoder is a left inverse of its encoder on entries within their widths, hence the encoder is injective
there, and the encoder puts the fields that its decoder cut together again. -/
theorem entryCodecIsLossless : Obligations.EntryCodecIsLossless := by
  refine ⟨fun a e => decodeTlb_encodeTlb, fun p e => decodePte_encodePte, encodeTlb_decodeTlb, encodePte_decodePte,
    fun a e f he hf h => ?_, fun p e f he hf h => ?_⟩
  · rw [← decodeTlb_encodeTlb he, h, decodeTlb_encodeTlb hf]
  · rw [← decodePte_encodePte he, h, decodePte_encodePte hf]

/-! ### The readouts -/

/-- RDTLB has no operand to check, so a ready core answers the slot. -/
theorem exec_rdtlb_of_ready {s : State} (h : s.Ready) (k : Slot) :
    exec (.rdtlb k) s = .next (s.answer (tlbReadout s.params k (s.tlb.get k))) := by
  obtain ⟨hh, hconf⟩ := h
  calc exec (.rdtlb k) s = execRdtlb k s := rfl
    _ = _ := State.perform_of_ok hh hconf rfl

theorem exec_rdpte_of_ready {s : State} (h : s.Ready) (pid : Pid) {vpn : Vpn} (hvpn : vpn.toNat < 2 ^ s.cfgVpn.toNat) :
    exec (.rdpte pid vpn) s = .next (s.answer (pteReadout s.params (s.pageTables.ptLookup pid vpn))) := by
  obtain ⟨hh, hconf⟩ := h
  calc exec (.rdpte pid vpn) s = execRdpte pid vpn s := rfl
    _ = _ := State.perform_of_ok hh hconf (decide_eq_true hvpn)

/-- Settles O38: the answer is the slot's word, which the codec gives back. -/
theorem rdtlbReadsSlot : Obligations.RdtlbReadsSlot :=
  fun _ k hready hage => ⟨_, exec_rdtlb_of_ready hready k, rfl, rfl, decodeTlb_encodeTlb hage⟩

/-- Settles O39: the answer is the entry's word, which the codec gives back. -/
theorem rdpteReadsEntry : Obligations.RdpteReadsEntry :=
  fun _ pid _ hready hvpn hpresent =>
    ⟨_, exec_rdpte_of_ready hready pid hvpn, rfl, rfl, decodePte_encodePte hpresent⟩

end Sys2Proof.Machine

/-! The policy (00_scope.md R8) shows in the bookkeeping of a hit alone: a step that answers no hit is the same step under
either policy (41_tlb.md R69, R70). -/
namespace Sys2Proof.Machine

theorem State.raise_withPolicy (p : Policy) (s : State) (e : Status) :
    (s.withPolicy p).raise e = (s.raise e).withPolicy p := by
  unfold State.raise
  split <;> rfl

/-- The checks in front of a command do not see the policy. -/
theorem State.perform_withPolicy {p : Policy} {gate inRange : Bool} {effect : State → Result} {s u : State}
    (h : s.perform gate inRange effect = .next u)
    (heff : effect s = .next u → effect (s.withPolicy p) = .next (u.withPolicy p)) :
    (s.withPolicy p).perform gate inRange effect = .next (u.withPolicy p) := by
  have hhalted : (s.withPolicy p).halted = s.halted := rfl
  unfold State.perform at h ⊢
  rw [hhalted]
  split_ifs at h ⊢
  · rw [State.raise_withPolicy, Host.Outcome.next.inj h]
  · rw [State.raise_withPolicy, Host.Outcome.next.inj h]
  · rw [State.raise_withPolicy, Host.Outcome.next.inj h]
  · exact heff h

/-- A miss refills from a valid page-table entry (43_translator.md R77). -/
theorem State.translate_refill {s : State} {vpn : Vpn} {pid : Pid} (hmiss : s.tlb.lookupValid vpn pid = none)
    (hvalid : (s.pageTables.ptLookup pid vpn).valid = true) :
    s.translate vpn pid =
      .ok { pfn := (s.pageTables.ptLookup pid vpn).pfn, hit := false
            slot := (s.tlb.selectRefill vpn pid).1
            fill := (s.tlb.selectRefill vpn pid).2
            victim := (s.tlb.insert s.params.ageBits vpn pid (s.pageTables.ptLookup pid vpn).pfn).victim }
        { s with tlb := (s.tlb.insert s.params.ageBits vpn pid (s.pageTables.ptLookup pid vpn).pfn).tlb } := by
  simp only [State.translate, hmiss, hvalid, if_true, Tlb.insert_slot, Tlb.insert_fill]

/-- A miss resolves alike under either policy: `hit_touch` alone reads it. -/
theorem State.virtualToPhysical_withPolicy (p : Policy) {s : State} {va : VirtAddr} {pid : Pid}
    (hmiss : s.tlb.lookupValid (s.vpnOf va) pid = none) :
    (s.virtualToPhysical va pid = .pageNotMapped ∧ (s.withPolicy p).virtualToPhysical va pid = .pageNotMapped) ∨
      ∃ a pa t, s.virtualToPhysical va pid = .ok a pa t ∧
        (s.withPolicy p).virtualToPhysical va pid = .ok a pa (t.withPolicy p) := by
  have hmiss' : (s.withPolicy p).tlb.lookupValid ((s.withPolicy p).vpnOf va) pid = none := hmiss
  cases hvalid : (s.pageTables.ptLookup pid (s.vpnOf va)).valid with
  | false =>
    refine .inl ⟨?_, ?_⟩ <;>
      exact State.virtualToPhysical_eq_pageNotMapped_iff.2 (State.translate_eq_pageNotMapped_iff.2 ⟨hmiss, hvalid⟩)
  | true =>
    exact .inr ⟨_, _, _, State.virtualToPhysical_eq_ok_iff.2 ⟨State.translate_refill hmiss hvalid, rfl⟩,
      State.virtualToPhysical_eq_ok_iff.2 ⟨State.translate_refill hmiss' hvalid, rfl⟩⟩

/-- An access that answers no hit is the same under either policy, if what follows its translation answers the
translation's hit and does not see the policy. -/
theorem State.access_withPolicy {p : Policy} {s u : State} {va : VirtAddr} {pid : Pid}
    {f : Access → Nat → State → Result} (h : s.access va pid f = .next u) (hhit : u.resp.hit = false)
    (hf : ∀ a pa t, f a pa t = .next u →
      u.resp.hit = a.hit ∧ f a pa (t.withPolicy p) = .next (u.withPolicy p)) :
    (s.withPolicy p).access va pid f = .next (u.withPolicy p) := by
  cases hlookup : s.tlb.lookupValid (s.vpnOf va) pid with
  | some k =>
    rw [State.access_of_ok (State.virtualToPhysical_eq_ok_iff.2 ⟨State.translate_hit hlookup, rfl⟩)] at h
    obtain ⟨hanswered, -⟩ := hf _ _ _ h
    exact absurd (hhit.symm.trans hanswered) Bool.false_ne_true
  | none =>
    rcases State.virtualToPhysical_withPolicy p hlookup with ⟨hv, hv'⟩ | ⟨a, pa, t, hv, hv'⟩
    · simp only [State.access, hv] at h
      simp only [State.access, hv', State.raise_withPolicy, Host.Outcome.next.inj h]
    · rw [State.access_of_ok hv] at h
      rw [State.access_of_ok hv']
      exact (hf a pa t h).2

/-- A command that answers no hit is the same command under either policy. -/
theorem exec_withPolicy (p : Policy) {i : Instr} {s u : State} (h : exec i s = .next u) (hhit : u.resp.hit = false) :
    exec i (s.withPolicy p) = .next (u.withPolicy p) := by
  cases i with
  | load pid va =>
    refine State.perform_withPolicy ((execLoad_eq_access pid va s).symm.trans h) fun heff =>
      State.access_withPolicy heff hhit fun a pa t hf => ?_
    obtain ⟨hw, rfl⟩ := next_of_hasWord hf
    exact ⟨by simp, if_pos hw⟩
  | store pid va =>
    refine State.perform_withPolicy ((execStore_eq_access pid va s).symm.trans h) fun heff =>
      State.access_withPolicy heff hhit fun a pa t hf => ?_
    obtain ⟨hw, rfl⟩ := next_of_hasWord hf
    exact ⟨by simp, if_pos hw⟩
  | xlate pid va =>
    refine State.perform_withPolicy ((execXlate_eq_access pid va s).symm.trans h) fun heff =>
      State.access_withPolicy heff hhit fun a pa t hf => ?_
    obtain rfl := Host.Outcome.next.inj hf
    exact ⟨by simp, rfl⟩
  | define off pfnb vpnb =>
    refine State.perform_withPolicy (show execDefine off pfnb vpnb s = .next u from h) fun heff => ?_
    cases heff; rfl
  | map pid vpn pfn =>
    refine State.perform_withPolicy (show execMap pid vpn pfn s = .next u from h) fun heff => ?_
    cases heff; rfl
  | unmap pid vpn =>
    refine State.perform_withPolicy (show execUnmap pid vpn s = .next u from h) fun heff => ?_
    cases heff; rfl
  | rdtlb k =>
    refine State.perform_withPolicy (show execRdtlb k s = .next u from h) fun heff => ?_
    cases heff; rfl
  | rdpte pid vpn =>
    refine State.perform_withPolicy (show execRdpte pid vpn s = .next u from h) fun heff => ?_
    cases heff; rfl

theorem State.acceptCommand_withPolicy (p : Policy) (s : State) (cw : CommandWord) :
    (∃ t, s.acceptCommand cw = .done t ∧ (s.withPolicy p).acceptCommand cw = .done (t.withPolicy p)) ∨
      ∃ i, s.acceptCommand cw = .perform i s ∧ (s.withPolicy p).acceptCommand cw = .perform i (s.withPolicy p) := by
  unfold State.acceptCommand
  by_cases hh : s.halted = true
  · have hh' : (s.withPolicy p).halted = true := hh
    rw [if_pos hh, if_pos hh', State.raise_withPolicy]
    exact .inl ⟨_, rfl, rfl⟩
  · have hh' : ¬(s.withPolicy p).halted = true := hh
    rw [if_neg hh, if_neg hh', State.raise_withPolicy]
    cases decode cw with
    | illegal why => exact .inl ⟨_, rfl, rfl⟩
    | command i => exact .inr ⟨i, rfl, rfl⟩

/-- The command port does not see the policy. -/
theorem State.accept_withPolicy (p : Policy) (s : State) :
    (∃ t, s.accept = .done t ∧ (s.withPolicy p).accept = .done (t.withPolicy p)) ∨
      ∃ i t, s.accept = .perform i t ∧ (s.withPolicy p).accept = .perform i (t.withPolicy p) := by
  have hport : (s.withPolicy p).port = s.port := rfl
  unfold State.accept
  rw [hport]
  match s.port with
  | [] => exact .inl ⟨s, rfl, rfl⟩
  | .reset :: rest => exact .inl ⟨_, rfl, rfl⟩
  | .command cw d :: rest =>
    exact ((s.latch d rest).acceptCommand_withPolicy p cw).imp_right fun ⟨i, h, h'⟩ => ⟨i, _, h, h'⟩

/-- A step that leaves no hit in the response is the same step under either policy. -/
theorem step_withPolicy (p : Policy) {s u : State} (h : step s = .next u) (hhit : u.resp.hit = false) :
    step (s.withPolicy p) = .next (u.withPolicy p) := by
  unfold step at h ⊢
  rcases s.accept_withPolicy p with ⟨t, ht, ht'⟩ | ⟨i, t, ht, ht'⟩
  · simp only [ht, Host.Outcome.next.injEq] at h
    simp only [ht', h]
  · simp only [ht] at h
    simp only [ht']
    exact exec_withPolicy p h hhit

/-- A run that answers no hit is the same run under either policy (41_tlb.md R70). -/
theorem run_withPolicy (p : Policy) (n : Nat) {s t : State} (hrun : Sys2Proof.core.run n s = .next t)
    (hmiss : ∀ k, k ≤ n → ∀ u : State, Sys2Proof.core.run k s = .next u → 0 < k → u.resp.hit = false) :
    Sys2Proof.core.run n (s.withPolicy p) = .next (t.withPolicy p) := by
  induction n generalizing s with
  | zero =>
    obtain rfl := Host.Outcome.next.inj hrun
    rfl
  | succ n ih =>
    obtain ⟨u, hstep, hrest⟩ := core_run_succ_eq_next hrun
    have hhit : u.resp.hit = false := hmiss 1 (by omega) u (core_run_succ hstep) Nat.one_pos
    rw [core_run_succ (step_withPolicy p hstep hhit)]
    refine ih hrest fun k hk v hv _ => ?_
    exact hmiss (k + 1) (by omega) v ((core_run_succ hstep).trans hv) k.succ_pos

/-- Settles O43: the run under FIFO answers no hit, so it is the run under LRU from the same state. -/
theorem policiesAgreeWithoutHits : Obligations.PoliciesAgreeWithoutHits := by
  intro n s hmiss t hrun
  exact run_withPolicy .lru n (s := s.withPolicy .fifo) hrun hmiss

end Sys2Proof.Machine

/-! The slot that an insertion takes, as a MAP answers it (41_tlb.md R66, 30_encoding.md R48). -/
namespace Sys2Proof.Machine

theorem Inserted.response_of_victim_none {r : Inserted} (h : r.victim = none) (pfn : Pfn) :
    (r.response pfn).evOk = false ∧ (r.response pfn).evVpn = 0 ∧ (r.response pfn).evPid = 0 := by
  simp [Inserted.response, Response.withVictim, Response.zero, h]

theorem Inserted.response_of_victim_some {r : Inserted} {vpn : Vpn} {pid : Pid} (h : r.victim = some (vpn, pid))
    (pfn : Pfn) :
    (r.response pfn).evOk = true ∧ (r.response pfn).evVpn = vpn ∧ (r.response pfn).evPid = pid := by
  simp [Inserted.response, Response.withVictim, h]

/-- What an insertion answers is what `select_refill` chose, and nothing evicted unless it chose to evict. -/
theorem Tlb.insert_response_of_not_evict {t : Tlb} {vpn : Vpn} {pid : Pid} {k : Slot} {fill : Fill}
    (h : t.selectRefill vpn pid = (k, fill)) (hfill : fill ≠ .evict) (a : Nat) (pfn : Pfn) :
    ((t.insert a vpn pid pfn).response pfn).slot = k ∧ ((t.insert a vpn pid pfn).response pfn).fill = fill ∧
      ((t.insert a vpn pid pfn).response pfn).evOk = false ∧ ((t.insert a vpn pid pfn).response pfn).evVpn = 0 ∧
      ((t.insert a vpn pid pfn).response pfn).evPid = 0 := by
  have hvictim : (t.insert a vpn pid pfn).victim = none := by rw [Tlb.insert_victim, h, if_neg hfill]
  exact ⟨by simp [h], by simp [h], Inserted.response_of_victim_none hvictim pfn⟩

/-- An eviction answers the oldest slot and the tag that it held. -/
theorem Tlb.insert_response_of_evict {t : Tlb} {vpn : Vpn} {pid : Pid} {k : Slot}
    (h : t.selectRefill vpn pid = (k, .evict)) (a : Nat) (pfn : Pfn) :
    ((t.insert a vpn pid pfn).response pfn).slot = k ∧ ((t.insert a vpn pid pfn).response pfn).fill = .evict ∧
      ((t.insert a vpn pid pfn).response pfn).evOk = true ∧
      ((t.insert a vpn pid pfn).response pfn).evVpn = (t.get k).vpn ∧
      ((t.insert a vpn pid pfn).response pfn).evPid = (t.get k).pid := by
  have hvictim : (t.insert a vpn pid pfn).victim = some ((t.get k).vpn, (t.get k).pid) := by
    rw [Tlb.insert_victim, h, if_pos rfl]
  exact ⟨by simp [h], by simp [h], Inserted.response_of_victim_some hvictim pfn⟩

/-- The insertion of a tag that no slot carries answers steps 2 and 3 of 41_tlb.md R66. -/
theorem refillsFreeOrOldest_insert {s : State} {vpn : Vpn} {pid : Pid} (hnone : s.tlb.lookup vpn pid = none)
    (a : Nat) (pfn : Pfn) : RefillsFreeOrOldest s ((s.tlb.insert a vpn pid pfn).response pfn) := by
  rcases s.tlb.selectRefill_cases vpn pid with ⟨k, hk, -⟩ | ⟨k, -, hfree, hlowest, hsel⟩ | ⟨-, hfull, hsel⟩
  · exact absurd (hnone.symm.trans hk) (Option.some_ne_none k).symm
  · obtain ⟨hslot, hfill, hevOk, hevVpn, hevPid⟩ := Tlb.insert_response_of_not_evict hsel (by decide) a pfn
    refine ⟨fun _ => ?_, fun hfull => absurd (hfull k) (by simp [hfree])⟩
    rw [hslot]
    exact ⟨hfill, hevOk, hevVpn, hevPid, hfree, hlowest⟩
  · obtain ⟨hslot, hfill, hevOk, hevVpn, hevPid⟩ := Tlb.insert_response_of_evict hsel a pfn
    refine ⟨fun ⟨j, hfree⟩ => absurd (hfull j) (by simp [hfree]), fun _ => ?_⟩
    rw [hslot]
    exact ⟨hfill, hevOk, hevVpn, hevPid, s.tlb.oldest_spec⟩

/-- A MAP with its operands in range on a ready core inserts its tag and writes its page-table entry. -/
theorem exec_map_of_ready {s : State} (h : s.Ready) (pid : Pid) {vpn : Vpn} {pfn : Pfn}
    (hvpn : vpn.toNat < 2 ^ s.cfgVpn.toNat) (hpfn : pfn.toNat < 2 ^ s.cfgPfn.toNat) :
    exec (.map pid vpn pfn) s =
      .next ({ s with tlb := (s.tlb.insert s.params.ageBits vpn pid pfn).tlb
                      pageTables := s.pageTables.ptMap pid vpn pfn }.answer
        ((s.tlb.insert s.params.ageBits vpn pid pfn).response pfn)) := by
  obtain ⟨hh, hconf⟩ := h
  have hrange : (s.vpnInRange vpn && s.pfnInRange pfn) = true := by
    rw [Bool.and_eq_true]
    exact ⟨decide_eq_true hvpn, decide_eq_true hpfn⟩
  calc exec (.map pid vpn pfn) s = execMap pid vpn pfn s := rfl
    _ = _ := State.perform_of_ok hh hconf hrange

/-- Settles O23: a MAP answers what `select_refill` chose on the ages before the increment. -/
theorem mapChoosesRefillSlot : Obligations.MapChoosesRefillSlot := by
  intro s pid vpn pfn hready hvpn hpfn
  refine ⟨_, exec_map_of_ready hready pid hvpn hpfn, ?_, ?_⟩
  · rintro ⟨j, hj⟩
    rw [State.answer_resp]
    rcases s.tlb.selectRefill_cases vpn pid with ⟨k, hk, hsel⟩ | ⟨_, hnone, -⟩ | ⟨hnone, -⟩
    · obtain ⟨htag, hlowest⟩ := Tlb.lookup_eq_some_iff.1 hk
      obtain ⟨hslot, hfill, hevOk, hevVpn, hevPid⟩ :=
        Tlb.insert_response_of_not_evict hsel (by decide) s.params.ageBits pfn
      rw [hslot]
      exact ⟨hfill, hevOk, hevVpn, hevPid, htag, hlowest⟩
    · exact absurd hj (Tlb.lookup_eq_none_iff.1 hnone j)
    · exact absurd hj (Tlb.lookup_eq_none_iff.1 hnone j)
  · intro hfresh
    exact refillsFreeOrOldest_insert (Tlb.lookup_eq_none_iff.2 hfresh) s.params.ageBits pfn

end Sys2Proof.Machine

/-! I4 of 41_tlb.md R72: the ages of the valid slots stay distinct until one wraps. -/
namespace Sys2Proof.Machine

/-- `State.AgesDistinct` as a property of the slot array: no two valid slots have one age. -/
def Tlb.AgesDistinct (t : Tlb) : Prop :=
  ∀ j k : Slot, (t.get j).valid = true → (t.get k).valid = true → (t.get j).age = (t.get k).age → j = k

theorem State.agesDistinct_iff (s : State) : s.AgesDistinct ↔ s.tlb.AgesDistinct := Iff.rfl

/-- No valid slot's age wraps at the next increment. -/
def Tlb.NoneWraps (a : Nat) (t : Tlb) : Prop := ∀ k : Slot, (t.get k).valid = true → (t.get k).age + 1 < 2 ^ a

theorem TlbEntry.aged_age_of_lt {a : Nat} {e : TlbEntry} (hvalid : e.valid = true) (h : e.age + 1 < 2 ^ a) :
    (e.aged a).age = e.age + 1 := by
  rw [TlbEntry.aged_age, if_pos hvalid]
  exact Nat.mod_eq_of_lt h

theorem Tlb.agesDistinct_zero : Tlb.zero.AgesDistinct := by
  intro j k hj
  simp [TlbEntry.zero] at hj

/-- One slot made the youngest, every other valid slot one older: what an insertion and a hit under LRU share. The others'
ages stay distinct, and none of them is 0. -/
theorem Tlb.AgesDistinct.of_youngest {t u : Tlb} {a : Nat} {c : Slot} (h : t.AgesDistinct) (hwrap : t.NoneWraps a)
    (hc : (u.get c).age = 0) (hother : ∀ j, j ≠ c → u.get j = (t.get j).aged a) : u.AgesDistinct := by
  have older : ∀ j, j ≠ c → (u.get j).valid = true → (t.get j).valid = true ∧ (u.get j).age = (t.get j).age + 1 := by
    intro j hj hvalid
    rw [hother j hj] at hvalid ⊢
    rw [TlbEntry.aged_valid] at hvalid
    exact ⟨hvalid, TlbEntry.aged_age_of_lt hvalid (hwrap j hvalid)⟩
  intro j k hj hk hage
  by_cases hjc : j = c <;> by_cases hkc : k = c
  · exact hjc.trans hkc.symm
  · obtain ⟨-, hkAge⟩ := older k hkc hk
    rw [hjc, hc] at hage
    omega
  · obtain ⟨-, hjAge⟩ := older j hjc hj
    rw [hkc, hc] at hage
    omega
  · obtain ⟨hjValid, hjAge⟩ := older j hjc hj
    obtain ⟨hkValid, hkAge⟩ := older k hkc hk
    exact h j k hjValid hkValid (by omega)

theorem Tlb.AgesDistinct.insert {t : Tlb} {a : Nat} (h : t.AgesDistinct) (hwrap : t.NoneWraps a) (vpn : Vpn) (pid : Pid)
    (pfn : Pfn) : (t.insert a vpn pid pfn).tlb.AgesDistinct :=
  h.of_youngest hwrap (by rw [Tlb.insert_get, if_pos rfl]) fun j hj => by rw [Tlb.insert_get, if_neg hj]

theorem Tlb.AgesDistinct.hitTouch {t : Tlb} {p : Params} (h : t.AgesDistinct) (hwrap : t.NoneWraps p.ageBits) (k : Slot) :
    (t.hitTouch p k).AgesDistinct := by
  cases hp : p.policy with
  | fifo =>
    have hsame : t.hitTouch p k = t := by simp only [Tlb.hitTouch, hp]
    rwa [hsame]
  | lru =>
    have hget : ∀ j, (t.hitTouch p k).get j = if j = k then { t.get k with age := 0 } else (t.get j).aged p.ageBits :=
      fun j => by simp only [Tlb.hitTouch_get, hp]
    exact h.of_youngest hwrap (by rw [hget, if_pos rfl]) fun j hj => by rw [hget, if_neg hj]

theorem Tlb.AgesDistinct.invalidate {t : Tlb} (h : t.AgesDistinct) (vpn : Vpn) (pid : Pid) :
    (t.invalidate vpn pid).2.AgesDistinct := by
  have kept : ∀ j, ((t.invalidate vpn pid).2.get j).valid = true →
      (t.get j).valid = true ∧ ((t.invalidate vpn pid).2.get j).age = (t.get j).age := by
    intro j hj
    rw [Tlb.invalidate_get] at hj ⊢
    split at hj
    · simp at hj
    · rw [if_neg ‹_›]
      exact ⟨hj, rfl⟩
  intro j k hj hk hage
  obtain ⟨hjValid, hjAge⟩ := kept j hj
  obtain ⟨hkValid, hkAge⟩ := kept k hk
  exact h j k hjValid hkValid (by rw [← hjAge, ← hkAge, hage])

/-- What a step does to the TLB: nothing, a clearing, a hit's bookkeeping, an insertion or an invalidation. -/
theorem step_tlb_cases {s t : State} (h : step s = .next t) :
    t.tlb = s.tlb ∨ t.tlb = .zero ∨ (∃ k, t.tlb = s.tlb.hitTouch s.params k) ∨
      (∃ vpn pid pfn, t.tlb = (s.tlb.insert s.params.ageBits vpn pid pfn).tlb) ∨
      ∃ vpn pid, t.tlb = (s.tlb.invalidate vpn pid).2 := by
  rcases step_eq_next h with ⟨-, rfl⟩ | ⟨rest, -, rfl⟩ | ⟨cw, d, rest, -, ⟨e, -, rfl⟩ | ⟨i, -, hexec⟩⟩
  · exact .inl rfl
  · exact .inr (.inl rfl)
  · exact .inl ((s.latch d rest).raise_tlb e)
  · exact exec_tlb_cases (s := s.latch d rest) hexec

/-- Settles O48: each of the operations that a step makes on the TLB keeps the ages of the valid slots distinct. -/
theorem agesStayDistinctUntilWrap : Obligations.AgesStayDistinctUntilWrap := by
  intro s t hs hwrap hstep
  have hdistinct : s.tlb.AgesDistinct := s.agesDistinct_iff.1 hs
  have hnone : s.tlb.NoneWraps s.params.ageBits := hwrap
  rw [State.agesDistinct_iff]
  rcases step_tlb_cases hstep with ht | ht | ⟨k, ht⟩ | ⟨vpn, pid, pfn, ht⟩ | ⟨vpn, pid, ht⟩ <;> rw [ht]
  · exact hdistinct
  · exact Tlb.agesDistinct_zero
  · exact hdistinct.hitTouch hnone k
  · exact hdistinct.insert hnone vpn pid pfn
  · exact hdistinct.invalidate vpn pid

end Sys2Proof.Machine

/-! I2, I3 and I6 of 41_tlb.md R72 hold together: what ties the TLB to the page tables is kept by a hit's bookkeeping, an
insertion with its page-table entry, and an invalidation with its. -/
namespace Sys2Proof.Machine

/-- A slot array agrees with page tables: the last three parts of `State.Inv` as a property of the two alone. -/
structure Tlb.Coherent (t : Tlb) (pt : PageTables) : Prop where
  lowest : t.ValidLowest
  agrees : ∀ k, (t.get k).valid = true →
    (pt.ptLookup (t.get k).pid (t.get k).vpn).valid = true ∧
      (pt.ptLookup (t.get k).pid (t.get k).vpn).pfn = (t.get k).pfn
  live : ∀ k, (pt.ptLookup (t.get k).pid (t.get k).vpn).valid = true →
    ∃ j, (t.get j).valid = true ∧ (t.get j).SameTag (t.get k)

theorem State.coherent_iff (s : State) :
    s.tlb.Coherent s.pageTables ↔ s.ValidSlotsLowest ∧ s.TlbAgreesWithPageTables ∧ s.MappedTagsLive :=
  ⟨fun ⟨hlowest, hagrees, hlive⟩ => ⟨hlowest, hagrees, hlive⟩,
    fun ⟨hlowest, hagrees, hlive⟩ => ⟨hlowest, hagrees, hlive⟩⟩

@[simp] theorem PageTables.ptLookup_nil (pid : Pid) (vpn : Vpn) : PageTables.ptLookup [] pid vpn = .zero := rfl

theorem Tlb.coherent_zero : Tlb.zero.Coherent [] where
  lowest := Tlb.validLowest_zero
  agrees k hk := by simp [TlbEntry.zero] at hk
  live k hk := by simp [PtEntry.zero] at hk

theorem Tlb.Coherent.hitTouch {t : Tlb} {pt : PageTables} (h : t.Coherent pt) (p : Params) (k : Slot) :
    (t.hitTouch p k).Coherent pt where
  lowest := h.lowest.hitTouch p k
  agrees j := by simpa using h.agrees j
  live j := by simpa [TlbEntry.SameTag] using h.live j

/-- Two valid slots of one tag are one slot. -/
theorem Tlb.ValidLowest.eq_of_sameTag {t : Tlb} (h : t.ValidLowest) {j k : Slot} (hj : (t.get j).valid = true)
    (hk : (t.get k).valid = true) (htag : (t.get j).SameTag (t.get k)) : j = k :=
  le_antisymm (h k j hj ⟨htag.1.symm, htag.2.symm⟩) (h j k hk htag)

/-! ### Insertion -/

/-- After `select_refill` chose another slot, a valid slot does not carry the tag. -/
theorem Tlb.ValidLowest.untagged_of_ne_selectRefill {t : Tlb} (h : t.ValidLowest) {vpn : Vpn} {pid : Pid} {j : Slot}
    (hvalid : (t.get j).valid = true) (hne : j ≠ (t.selectRefill vpn pid).1) :
    ¬((t.get j).pid = pid ∧ (t.get j).vpn = vpn) := by
  rintro ⟨hpid, hvpn⟩
  obtain ⟨hcvpn, hcpid, hle⟩ := Tlb.selectRefill_of_tagged hvpn hpid
  exact hne (le_antisymm (h _ j hvalid ⟨hcvpn.trans hvpn.symm, hcpid.trans hpid.symm⟩) hle)

/-- `select_refill` never takes the valid slot of another tag that a second slot carries: it takes a slot of the tag, an
invalid one, or any only when all are valid, and then no tag stands in two slots. -/
theorem Tlb.ValidLowest.ne_selectRefill {t : Tlb} (h : t.ValidLowest) {vpn : Vpn} {pid : Pid} {j m : Slot}
    (hj : j ≠ (t.selectRefill vpn pid).1) (htag : ¬((t.get j).pid = pid ∧ (t.get j).vpn = vpn))
    (hm : (t.get m).valid = true) (hsame : (t.get m).SameTag (t.get j)) : m ≠ (t.selectRefill vpn pid).1 := by
  obtain ⟨hvpn, hpid⟩ := hsame
  rcases t.selectRefill_cases vpn pid with ⟨k, hk, hsel⟩ | ⟨k, -, hfree, -, hsel⟩ | ⟨-, hfull, hsel⟩ <;>
    rw [hsel] at hj ⊢ <;> rintro rfl
  · obtain ⟨⟨hkvpn, hkpid⟩, -⟩ := Tlb.lookup_eq_some_iff.1 hk
    exact htag ⟨hpid.symm.trans hkpid, hvpn.symm.trans hkvpn⟩
  · exact absurd (hm.symm.trans hfree) (by decide)
  · exact hj (h.eq_of_sameTag (hfull j) hm ⟨hvpn.symm, hpid.symm⟩)

/-- An insertion keeps the coherence if the page tables hold the inserted frame at its tag and are otherwise as before. -/
theorem Tlb.Coherent.insert {t : Tlb} {pt pt' : PageTables} (h : t.Coherent pt) (a : Nat) {vpn : Vpn} {pid : Pid}
    {pfn : Pfn} (hnew : (pt'.ptLookup pid vpn).valid = true ∧ (pt'.ptLookup pid vpn).pfn = pfn)
    (hother : ∀ q v, ¬(q = pid ∧ v = vpn) → pt'.ptLookup q v = pt.ptLookup q v) :
    (t.insert a vpn pid pfn).tlb.Coherent pt' where
  lowest := h.lowest.insert a vpn pid pfn
  agrees j hj := by
    rw [Tlb.insert_get] at hj ⊢
    split_ifs at hj ⊢ with hjc
    · exact hnew
    · simp only [TlbEntry.aged_valid, TlbEntry.aged_vpn, TlbEntry.aged_pid, TlbEntry.aged_pfn] at hj ⊢
      rw [hother _ _ (h.lowest.untagged_of_ne_selectRefill hj hjc)]
      exact h.agrees j hj
  live j hlive := by
    by_cases hjc : j = (t.selectRefill vpn pid).1
    · exact ⟨j, by rw [Tlb.insert_get, if_pos hjc], rfl, rfl⟩
    have hget : (t.insert a vpn pid pfn).tlb.get j = (t.get j).aged a := by rw [Tlb.insert_get, if_neg hjc]
    rw [hget, TlbEntry.aged_pid, TlbEntry.aged_vpn] at hlive
    by_cases htag : (t.get j).pid = pid ∧ (t.get j).vpn = vpn
    · refine ⟨(t.selectRefill vpn pid).1, ?_⟩
      rw [hget, Tlb.insert_get, if_pos rfl]
      exact ⟨rfl, by simp [htag.2], by simp [htag.1]⟩
    · rw [hother _ _ htag] at hlive
      obtain ⟨m, hm, hsame⟩ := h.live j hlive
      have hmc : m ≠ (t.selectRefill vpn pid).1 := h.lowest.ne_selectRefill hjc htag hm hsame
      refine ⟨m, ?_⟩
      rw [hget, Tlb.insert_get, if_neg hmc]
      exact ⟨by simpa using hm, by simpa [TlbEntry.SameTag] using hsame⟩

/-! ### Invalidation -/

@[simp] theorem Tlb.invalidate_vpn (t : Tlb) (vpn : Vpn) (pid : Pid) (j : Slot) :
    ((t.invalidate vpn pid).2.get j).vpn = (t.get j).vpn := by
  rw [Tlb.invalidate_get]; split <;> rfl

@[simp] theorem Tlb.invalidate_pid (t : Tlb) (vpn : Vpn) (pid : Pid) (j : Slot) :
    ((t.invalidate vpn pid).2.get j).pid = (t.get j).pid := by
  rw [Tlb.invalidate_get]; split <;> rfl

@[simp] theorem Tlb.invalidate_pfn (t : Tlb) (vpn : Vpn) (pid : Pid) (j : Slot) :
    ((t.invalidate vpn pid).2.get j).pfn = (t.get j).pfn := by
  rw [Tlb.invalidate_get]; split <;> rfl

@[simp] theorem Tlb.invalidate_age (t : Tlb) (vpn : Vpn) (pid : Pid) (j : Slot) :
    ((t.invalidate vpn pid).2.get j).age = (t.get j).age := by
  rw [Tlb.invalidate_get]; split <;> rfl

/-- Under I2, exactly the valid slots of other tags are valid after `invalidate`. -/
theorem Tlb.ValidLowest.invalidate_valid_iff {t : Tlb} (h : t.ValidLowest) {vpn : Vpn} {pid : Pid} {j : Slot} :
    ((t.invalidate vpn pid).2.get j).valid = true ↔
      (t.get j).valid = true ∧ ¬((t.get j).pid = pid ∧ (t.get j).vpn = vpn) := by
  rw [Tlb.invalidate_get]
  split_ifs with hfound
  · obtain ⟨⟨-, hvpn, hpid⟩, -⟩ := Tlb.lookupValid_eq_some_iff.1 hfound
    simp [hvpn, hpid]
  · refine ⟨fun hj => ⟨hj, fun ⟨hpid, hvpn⟩ => ?_⟩, And.left⟩
    refine hfound (Tlb.lookupValid_eq_some_iff.2 ⟨⟨hj, hvpn, hpid⟩, fun k _ hkvpn hkpid => ?_⟩)
    exact h k j hj ⟨hkvpn.trans hvpn.symm, hkpid.trans hpid.symm⟩

/-- An invalidation with the page-table entry of its tag keeps the coherence. -/
theorem Tlb.Coherent.invalidate {t : Tlb} {pt : PageTables} (h : t.Coherent pt) (vpn : Vpn) (pid : Pid) :
    (t.invalidate vpn pid).2.Coherent (pt.ptUnmap pid vpn) where
  lowest := h.lowest.invalidate vpn pid
  agrees j hj := by
    obtain ⟨hvalid, htag⟩ := h.lowest.invalidate_valid_iff.1 hj
    simpa [PageTables.ptLookup_ptUnmap, htag] using h.agrees j hvalid
  live j hlive := by
    simp only [Tlb.invalidate_vpn, Tlb.invalidate_pid, PageTables.ptLookup_ptUnmap] at hlive
    split_ifs at hlive with htag
    obtain ⟨m, hm, hvpn, hpid⟩ := h.live j hlive
    refine ⟨m, h.lowest.invalidate_valid_iff.2 ⟨hm, ?_⟩, by simpa using hvpn, by simpa using hpid⟩
    rwa [hvpn, hpid]

end Sys2Proof.Machine

/-! The widths of 10_state.md: every write to the TLB, the page tables and memory keeps the fields within them. -/
namespace Sys2Proof.Machine

/-! ### The TLB -/

/-- A slot's fields are within the widths that the state's configuration and parameters give (10_state.md R18). -/
def TlbEntry.Fits (s : State) (e : TlbEntry) : Prop :=
  e.vpn.toNat < 2 ^ s.cfgVpn.toNat ∧ e.pfn.toNat < 2 ^ s.cfgPfn.toNat ∧ e.age < 2 ^ s.params.ageBits

/-- `State.TlbFits` as a property of the slot array. -/
def Tlb.Fits (s : State) (t : Tlb) : Prop := ∀ k, (t.get k).Fits s

theorem State.tlbFits_iff (s : State) : s.TlbFits ↔ s.tlb.Fits s := Iff.rfl

theorem TlbEntry.Fits.youngest {s : State} {e : TlbEntry} (h : e.Fits s) : { e with age := 0 }.Fits s := by
  obtain ⟨hvpn, hpfn, -⟩ := h
  exact ⟨hvpn, hpfn, Nat.two_pow_pos _⟩

theorem TlbEntry.Fits.aged {s : State} {e : TlbEntry} (h : e.Fits s) : (e.aged s.params.ageBits).Fits s := by
  obtain ⟨hvpn, hpfn, hage⟩ := h
  refine ⟨by simpa using hvpn, by simpa using hpfn, ?_⟩
  rw [TlbEntry.aged_age]
  split
  · exact nextAge_lt _ _
  · exact hage

theorem Tlb.fits_zero (s : State) : Tlb.zero.Fits s := by
  intro k
  rw [Tlb.get_zero]
  exact ⟨Nat.two_pow_pos _, Nat.two_pow_pos _, Nat.two_pow_pos _⟩

theorem Tlb.Fits.hitTouch {s : State} {t : Tlb} (h : t.Fits s) (k : Slot) : (t.hitTouch s.params k).Fits s := by
  intro j
  rw [Tlb.hitTouch_get]
  split
  · exact h j
  · split
    · exact (h k).youngest
    · exact (h j).aged

theorem Tlb.Fits.insert {s : State} {t : Tlb} (h : t.Fits s) {vpn : Vpn} (pid : Pid) {pfn : Pfn}
    (hvpn : vpn.toNat < 2 ^ s.cfgVpn.toNat) (hpfn : pfn.toNat < 2 ^ s.cfgPfn.toNat) :
    (t.insert s.params.ageBits vpn pid pfn).tlb.Fits s := by
  intro j
  rw [Tlb.insert_get]
  split
  · exact ⟨hvpn, hpfn, Nat.two_pow_pos _⟩
  · exact (h j).aged

theorem Tlb.Fits.invalidate {s : State} {t : Tlb} (h : t.Fits s) (vpn : Vpn) (pid : Pid) :
    (t.invalidate vpn pid).2.Fits s := by
  intro j
  simpa [TlbEntry.Fits] using h j

/-! ### The page tables -/

theorem ptIndex_lt (pid : Pid) (vpn : Vpn) : ptIndex pid vpn < 1024 := by
  have hpid := pid.isLt
  have hvpn := vpn.isLt
  unfold ptIndex
  omega

theorem ptIndex_mod (pid : Pid) (vpn : Vpn) : ptIndex pid vpn % 256 = vpn.toNat := by
  have hvpn := vpn.isLt
  unfold ptIndex
  omega

theorem State.PageTablesFit.ptLookup_present_lt {s : State} (h : s.PageTablesFit) (pid : Pid) (vpn : Vpn) :
    (s.pageTables.ptLookup pid vpn).present < 2 ^ s.params.presentBits := by
  obtain ⟨-, hfit⟩ := h
  rcases Cells.read_eq_or_mem PtEntry.zero s.pageTables (ptIndex pid vpn) with hzero | hmem
  · rw [PageTables.ptLookup, hzero]
    exact Nat.two_pow_pos _
  · obtain ⟨-, -, -, hpresent⟩ := hfit _ hmem
    exact hpresent

/-- A store of an entry within its widths at an index in range keeps the page tables within theirs. -/
theorem State.PageTablesFit.ptStore {s : State} (h : s.PageTablesFit) (pid : Pid) {vpn : Vpn} {e : PtEntry}
    (hvpn : vpn.toNat < 2 ^ s.cfgVpn.toNat) (hpfn : e.pfn.toNat < 2 ^ s.cfgPfn.toNat)
    (hpresent : e.present < 2 ^ s.params.presentBits) :
    { s with pageTables := s.pageTables.ptStore pid vpn e }.PageTablesFit := by
  obtain ⟨hwf, hfit⟩ := h
  refine ⟨PageTables.ptStore_wf _ pid vpn e hwf, fun c hc => ?_⟩
  rcases Cells.mem_write hc with rfl | hold
  · exact ⟨ptIndex_lt pid vpn, (ptIndex_mod pid vpn).trans_lt hvpn, hpfn, hpresent⟩
  · exact hfit c hold

theorem State.PageTablesFit.ptMap {s : State} (h : s.PageTablesFit) (pid : Pid) {vpn : Vpn} {pfn : Pfn}
    (hvpn : vpn.toNat < 2 ^ s.cfgVpn.toNat) (hpfn : pfn.toNat < 2 ^ s.cfgPfn.toNat) :
    { s with pageTables := s.pageTables.ptMap pid vpn pfn }.PageTablesFit :=
  h.ptStore pid hvpn hpfn (Nat.two_pow_pos _)

theorem State.PageTablesFit.ptUnmap {s : State} (h : s.PageTablesFit) (pid : Pid) {vpn : Vpn}
    (hvpn : vpn.toNat < 2 ^ s.cfgVpn.toNat) :
    { s with pageTables := s.pageTables.ptUnmap pid vpn }.PageTablesFit :=
  h.ptStore pid hvpn (h.ptLookup_pfn_lt pid vpn) (h.ptLookup_present_lt pid vpn)

/-! ### Memory -/

theorem State.MemoryFits.memRead_lt {s : State} (h : s.MemoryFits) (pa : Nat) :
    s.memRead pa < 2 ^ s.params.wordBits := by
  obtain ⟨-, hfit⟩ := h
  rcases Cells.read_eq_or_mem 0 s.mem pa with hzero | hmem
  · rw [State.memRead, hzero]
    exact Nat.two_pow_pos _
  · obtain ⟨-, hword⟩ := hfit _ hmem
    exact hword

theorem State.MemoryFits.memWrite {s : State} (h : s.MemoryFits) {pa : Nat} {v : MemWord} (hw : s.hasWord pa = true)
    (hv : v < 2 ^ s.params.wordBits) : (s.memWrite pa v).MemoryFits := by
  obtain ⟨hwf, hfit⟩ := h
  refine ⟨s.memWrite_wf pa v hwf, fun c hc => ?_⟩
  rcases Cells.mem_write hc with rfl | hold
  · exact ⟨State.lt_memWords_of_hasWord hw, hv⟩
  · exact hfit c hold

end Sys2Proof.Machine

/-! The invariant: each change that a step makes to the state keeps it, hence each command and each step does. -/
namespace Sys2Proof.Machine

/-! ### One change at a time -/

/-- A response whose numbers are within their widths (30_encoding.md R48). -/
theorem State.Inv.answer {s : State} (h : s.Inv) {r : Response} (hdata : r.data < 2 ^ s.params.wordBits)
    (hew : r.ew < 2 ^ max s.params.tlbWordBits s.params.pteWordBits) : (s.answer r).Inv := by
  obtain ⟨hparams, hc, hhalt, htlb, hpt, hmem, ⟨hdin, -, -⟩, hcoherent⟩ := h
  exact ⟨hparams, hc, hhalt, htlb, hpt, hmem, ⟨hdin, hdata, hew⟩, hcoherent⟩

/-- A response without data and without an entry word. -/
theorem State.Inv.answer_of_zero {s : State} (h : s.Inv) {r : Response} (hdata : r.data = 0) (hew : r.ew = 0) :
    (s.answer r).Inv :=
  h.answer (hdata ▸ Nat.two_pow_pos _) (hew ▸ Nat.two_pow_pos _)

theorem Status.code_of_fatal {e : Status} (h : e.fatal = true) : e.code = 2 ∨ e.code = 3 ∨ e.code = 4 := by
  cases e <;> simp [Status.fatal, Status.code] at h ⊢

/-- Raising any status: a fatal one is recorded (10_state.md R16). -/
theorem State.Inv.raise {s : State} (h : s.Inv) (e : Status) : (s.raise e).Inv := by
  have hanswer : (s.answer (.only e)).Inv := h.answer_of_zero rfl rfl
  cases he : e.fatal with
  | false => rwa [s.raise_of_not_fatal e he]
  | true =>
    obtain ⟨hparams, hc, -, hrest⟩ := hanswer
    rw [s.raise_of_fatal e he]
    exact ⟨hparams, hc, ⟨fun hh => Bool.noConfusion hh, fun _ => Status.code_of_fatal he⟩, hrest⟩

theorem State.Inv.latch {s : State} (h : s.Inv) (d : Nat) (rest : List PortEvent) : (s.latch d rest).Inv := by
  obtain ⟨hparams, hc, hhalt, htlb, hpt, hmem, ⟨-, hdata, hew⟩, hcoherent⟩ := h
  exact ⟨hparams, hc, hhalt, htlb, hpt, hmem, ⟨Nat.mod_lt _ (Nat.two_pow_pos _), hdata, hew⟩, hcoherent⟩

/-- A new slot array and new page tables that fit and cohere. -/
theorem State.Inv.withMappings {s : State} (h : s.Inv) {u : Tlb} {pt : PageTables} (hfits : u.Fits s)
    (hpt : { s with pageTables := pt }.PageTablesFit) (hcoherent : u.Coherent pt) :
    { s with tlb := u, pageTables := pt }.Inv := by
  obtain ⟨hparams, hc, hhalt, -, -, hmem, hports, -⟩ := h
  exact ⟨hparams, hc, hhalt, hfits, hpt, hmem, hports, hcoherent.lowest, hcoherent.agrees, hcoherent.live⟩

theorem State.Inv.memWrite {s : State} (h : s.Inv) {pa : Nat} {v : MemWord} (hw : s.hasWord pa = true)
    (hv : v < 2 ^ s.params.wordBits) : (s.memWrite pa v).Inv := by
  obtain ⟨hparams, hc, hhalt, htlb, hpt, hmem, hports, hcoherent⟩ := h
  exact ⟨hparams, hc, hhalt, htlb, hpt, hmem.memWrite hw hv, hports, hcoherent⟩

/-- A state whose TLB, page tables and memory are zero has the invariant if its other fields do. -/
theorem State.inv_of_cleared {s : State} (hparams : s.params.Legal) (hc : s.ConfigLegal) (hhalt : s.HaltRecorded)
    (hports : s.PortsFit) (htlb : s.tlb = .zero) (hpt : s.pageTables = []) (hmem : s.mem = []) : s.Inv := by
  have hcoherent : s.tlb.Coherent s.pageTables := by
    rw [htlb, hpt]
    exact Tlb.coherent_zero
  refine ⟨hparams, hc, hhalt, s.tlbFits_iff.2 (htlb ▸ Tlb.fits_zero s), ?_, ?_, hports, s.coherent_iff.1 hcoherent⟩
  · rw [State.PageTablesFit, hpt]
    exact ⟨Cells.wf_nil _, by simp⟩
  · rw [State.MemoryFits, hmem]
    exact ⟨Cells.wf_nil _, by simp⟩

theorem State.restart_inv {s : State} (h : s.params.Legal) : s.restart.Inv :=
  State.inv_of_cleared h ⟨Nat.zero_le _, Nat.zero_le _, Nat.zero_le _⟩ ⟨fun _ => rfl, fun hh => Bool.noConfusion hh⟩
    ⟨Nat.two_pow_pos _, Nat.two_pow_pos _, Nat.two_pow_pos _⟩ rfl rfl rfl

theorem State.Inv.established {s : State} (h : s.Inv) {off pfnb vpnb : SizeField}
    (hsizes : (s.established off pfnb vpnb).ConfigLegal) : (s.established off pfnb vpnb).Inv := by
  obtain ⟨hparams, -, hhalt, -, -, -, hports, -⟩ := h
  exact State.inv_of_cleared hparams hsizes hhalt hports rfl rfl rfl

/-! ### Translations, commands and steps -/

/-- A translation's TLB: a hit's bookkeeping, or the insertion of the page table's frame on a miss. -/
theorem State.Inv.translated {s : State} (h : s.Inv) {va : VirtAddr} {pid : Pid} {a : Access} {pa : Nat} {u : Tlb}
    (hva : va.toNat < 2 ^ (s.cfgVpn.toNat + s.cfgOff.toNat))
    (hv : s.virtualToPhysical va pid = .ok a pa { s with tlb := u }) : { s with tlb := u }.Inv := by
  obtain ⟨-, ⟨-, -, hcVpn⟩, -, hfits, hpt, -, -, hrest⟩ := id h
  have hcoherent : s.tlb.Coherent s.pageTables := s.coherent_iff.2 hrest
  obtain ⟨-, hvpn⟩ := State.vpnOf_toNat hcVpn hva
  obtain ⟨htr, -⟩ := State.virtualToPhysical_eq_ok_iff.1 hv
  rcases State.translate_cases htr with ⟨k, -, ht, -⟩ | ⟨-, hvalid, ht, -⟩ <;> rw [ht]
  · exact h.withMappings (Tlb.Fits.hitTouch hfits k) hpt (hcoherent.hitTouch s.params k)
  · exact h.withMappings (Tlb.Fits.insert hfits pid hvpn (hpt.ptLookup_pfn_lt pid _)) hpt
      (hcoherent.insert s.params.ageBits ⟨hvalid, rfl⟩ fun _ _ _ => rfl)

theorem Params.tlbWordBits_eq (p : Params) : p.tlbWordBits = 19 + p.ageBits := rfl

theorem Params.pteWordBits_eq (p : Params) : p.pteWordBits = 9 + p.presentBits := Nat.add_right_comm 8 p.presentBits 1

/-- A command that completes behind its checks keeps the invariant. -/
theorem Completes.inv {s t : State} {i : Instr} (h : Completes s i t) (hs : s.Inv) (hg : s.gateOpen i = true)
    (hr : s.operandsInRange i = true) : t.Inv := by
  obtain ⟨-, -, -, hfits, hpt, hmem, ⟨hdin, -, -⟩, hrest⟩ := id hs
  have hcoherent : s.tlb.Coherent s.pageTables := s.coherent_iff.2 hrest
  cases h with
  | define off pfnb vpnb =>
    obtain ⟨-, hsizes⟩ : s.configured = false ∧ off.toNat ≤ 8 ∧ pfnb.toNat ≤ 8 ∧ vpnb.toNat ≤ 8 := by
      simpa [State.gateOpen, Instr.wellFormed, and_assoc] using hg
    exact (hs.established hsizes).answer_of_zero rfl rfl
  | map pid vpn pfn =>
    obtain ⟨hvpn, hpfn⟩ := of_decide_eq_true hr
    have hnew := s.pageTables.ptLookup_ptMap pid pid vpn vpn pfn
    rw [if_pos ⟨rfl, rfl⟩] at hnew
    refine (hs.withMappings (Tlb.Fits.insert hfits pid hvpn hpfn) (hpt.ptMap pid hvpn hpfn) ?_).answer_of_zero ?_ ?_
    · refine hcoherent.insert s.params.ageBits (by rw [hnew]; exact ⟨rfl, rfl⟩) fun q v hne => ?_
      rw [PageTables.ptLookup_ptMap, if_neg hne]
    · simp [Inserted.response]
    · simp [Inserted.response]
  | unmap pid vpn =>
    have hvpn : vpn.toNat < 2 ^ s.cfgVpn.toNat := of_decide_eq_true hr
    refine (hs.withMappings (Tlb.Fits.invalidate hfits vpn pid) (hpt.ptUnmap pid hvpn)
      (hcoherent.invalidate vpn pid)).answer_of_zero ?_ ?_
    · simp [unmapResponse]
    · simp [unmapResponse]
  | load hv =>
    refine (hs.translated (of_decide_eq_true hr) hv).answer (hmem.memRead_lt _) ?_
    simp [Access.response]
  | store hv hw =>
    refine ((hs.translated (of_decide_eq_true hr) hv).memWrite hw hdin).answer_of_zero ?_ ?_
    · simp [Access.response]
    · simp [Access.response]
  | xlate hv =>
    refine (hs.translated (of_decide_eq_true hr) hv).answer_of_zero ?_ ?_
    · simp [Access.response]
    · simp [Access.response]
  | rdtlb k =>
    obtain ⟨-, -, hage⟩ := hfits k
    refine hs.answer (Nat.two_pow_pos _) ((encodeTlb_lt hage).trans_le ?_)
    rw [← Params.tlbWordBits_eq]
    exact Nat.pow_le_pow_right (by decide) (le_max_left _ _)
  | rdpte pid vpn =>
    refine hs.answer (Nat.two_pow_pos _) ((encodePte_lt (hpt.ptLookup_present_lt pid vpn)).trans_le ?_)
    rw [← Params.pteWordBits_eq]
    exact Nat.pow_le_pow_right (by decide) (le_max_right _ _)

/-- Every command keeps the invariant. -/
theorem exec_keeps_inv {i : Instr} {s t : State} (hs : s.Inv) (h : exec i s = .next t) : t.Inv := by
  rcases exec_eq_next h with ⟨e, -, rfl⟩ | ⟨-, hg, hr, hd⟩
  · exact hs.raise e
  · exact hd.inv hs hg hr

/-- Settles O45: the idle core is as it was, a reset needs the parameters alone, and a command word is latched before it is
answered with an error status or performed. -/
theorem stepKeepsInvariant : Obligations.StepKeepsInvariant := by
  intro s t hs hstep
  rcases step_eq_next hstep with ⟨-, rfl⟩ | ⟨rest, -, rfl⟩ | ⟨cw, d, rest, -, ⟨e, -, rfl⟩ | ⟨i, -, hexec⟩⟩
  · exact hs
  · exact State.restart_inv hs.1
  · exact (hs.latch d rest).raise e
  · exact exec_keeps_inv (hs.latch d rest) hexec

end Sys2Proof.Machine

/-! What MAP and UNMAP write (43_translator.md R79, R80), and the way back from `Completes` to `exec`. -/
namespace Sys2Proof.Machine

/-- The converse of `exec_eq_next`: a command that passes its checks answers what `Completes` says. -/
theorem Completes.exec_eq {s t : State} {i : Instr} (h : Completes s i t) (hh : s.halted = false)
    (hg : s.gateOpen i = true) (hr : s.operandsInRange i = true) : exec i s = .next t := by
  cases h with
  | define off pfnb vpnb =>
    have hsizes : (!s.configured && sizeLegal off && sizeLegal pfnb && sizeLegal vpnb) = true := by
      simpa [State.gateOpen, Instr.wellFormed, sizeLegal, and_assoc] using hg
    calc exec (.define off pfnb vpnb) s = execDefine off pfnb vpnb s := rfl
      _ = _ := State.perform_of_ok hh hsizes rfl
  | map pid vpn pfn =>
    obtain ⟨hvpn, hpfn⟩ := of_decide_eq_true hr
    exact exec_map_of_ready ⟨hh, hg⟩ pid hvpn hpfn
  | unmap pid vpn =>
    calc exec (.unmap pid vpn) s = execUnmap pid vpn s := rfl
      _ = _ := State.perform_of_ok hh hg hr
  | load hv hw =>
    exact (execLoad_eq_access _ _ s).trans ((State.perform_access_of_ok hh hg hr hv).trans (if_pos hw))
  | store hv hw =>
    exact (execStore_eq_access _ _ s).trans ((State.perform_access_of_ok hh hg hr hv).trans (if_pos hw))
  | xlate hv => exact (execXlate_eq_access _ _ s).trans (State.perform_access_of_ok hh hg hr hv)
  | rdtlb k => exact exec_rdtlb_of_ready ⟨hh, hg⟩ k
  | rdpte pid vpn => exact exec_rdpte_of_ready ⟨hh, hg⟩ pid (of_decide_eq_true hr)

/-! ### MAP -/

theorem Tlb.insert_get_chosen (t : Tlb) (a : Nat) (vpn : Vpn) (pid : Pid) (pfn : Pfn) :
    (t.insert a vpn pid pfn).tlb.get (t.selectRefill vpn pid).1 =
      { vpn := vpn, pfn := pfn, pid := pid, valid := true, age := 0 } := by
  rw [Tlb.insert_get, if_pos rfl]

/-- A slot that `insert` does not fill ages if it is valid, modulo 2^AGE_BITS (41_tlb.md R67). -/
theorem Tlb.insert_get_of_ne (t : Tlb) (a : Nat) (vpn : Vpn) (pid : Pid) (pfn : Pfn) {j : Slot}
    (h : j ≠ (t.selectRefill vpn pid).1) :
    (t.insert a vpn pid pfn).tlb.get j =
      if (t.get j).valid then { t.get j with age := ((t.get j).age + 1) % 2 ^ a } else t.get j := by
  rw [Tlb.insert_get, if_neg h]
  rfl

/-- The response to an insertion names the slot, its fill, the frame and the victim; every other field is 0
(43_translator.md R79). -/
theorem Inserted.response_eq (r : Inserted) (pfn : Pfn) :
    r.response pfn = { Response.zero with
      slotOk := true, slot := (r.response pfn).slot, fill := (r.response pfn).fill, pfn := pfn
      evOk := (r.response pfn).evOk, evVpn := (r.response pfn).evVpn, evPid := (r.response pfn).evPid } := by
  unfold Inserted.response
  cases r.victim <;> rfl

/-- Settles O22: a MAP is one insertion and one page-table write, each known slot by slot and entry by entry. -/
theorem mapInstallsMapping : Obligations.MapInstallsMapping := by
  intro s pid vpn pfn hready hvpn hpfn
  have hslot := Inserted.response_slot (s.tlb.insert s.params.ageBits vpn pid pfn) pfn
  refine ⟨_, exec_map_of_ready hready pid hvpn hpfn, rfl, ?_, fun j hj => ?_, fun q v => ?_, ?_⟩
  · rw [State.answer_resp, hslot]
    exact s.tlb.insert_get_chosen s.params.ageBits vpn pid pfn
  · rw [State.answer_resp, hslot] at hj
    exact s.tlb.insert_get_of_ne s.params.ageBits vpn pid pfn hj
  · exact s.pageTables.ptLookup_ptMap pid q vpn v pfn
  · exact Inserted.response_eq _ pfn

/-! ### UNMAP -/

theorem Tlb.invalidate_of_miss {t : Tlb} {vpn : Vpn} {pid : Pid} (h : t.lookupValid vpn pid = none) :
    t.invalidate vpn pid = (none, t) := by
  simp only [Tlb.invalidate, h]

theorem Tlb.invalidate_get_of_hit {t : Tlb} {vpn : Vpn} {pid : Pid} {k : Slot} (h : t.lookupValid vpn pid = some k)
    (j : Slot) :
    (t.invalidate vpn pid).2.get j = if j = k then { t.get k with valid := false } else t.get j := by
  rw [Tlb.invalidate_get, h]
  by_cases hjk : j = k
  · rw [if_pos (congrArg some hjk.symm), if_pos hjk, hjk]
  · rw [if_neg fun hkj => hjk (Option.some.inj hkj).symm, if_neg hjk]

/-- `pt_unmap` leaves the frame behind: the response's pfn is the stale one (43_translator.md R80). -/
theorem PageTables.ptLookup_ptUnmap_pfn (pt : PageTables) (pid : Pid) (vpn : Vpn) :
    ((pt.ptUnmap pid vpn).ptLookup pid vpn).pfn = (pt.ptLookup pid vpn).pfn := by
  rw [PageTables.ptLookup_ptUnmap, if_pos ⟨rfl, rfl⟩]

/-- Settles O24: what `lookup_valid` finds decides between the two clauses on the TLB and on the response. -/
theorem unmapClearsMapping : Obligations.UnmapClearsMapping := by
  rintro s pid vpn ⟨hh, hconf⟩ hvpn
  refine ⟨_, (Completes.unmap pid vpn).exec_eq hh hconf (decide_eq_true hvpn), rfl, fun q v => ?_, fun hnone => ?_,
    fun k hvalid hkvpn hkpid hlowest => ?_⟩
  · exact s.pageTables.ptLookup_ptUnmap pid q vpn v
  · have hmiss : s.tlb.lookupValid vpn pid = none := Tlb.lookupValid_eq_none_iff.2 hnone
    rw [PageTables.ptLookup_ptUnmap_pfn, Tlb.invalidate_of_miss hmiss]
    exact ⟨rfl, rfl⟩
  · have hhit : s.tlb.lookupValid vpn pid = some k :=
      Tlb.lookupValid_eq_some_iff.2 ⟨⟨hvalid, hkvpn, hkpid⟩, hlowest⟩
    rw [PageTables.ptLookup_ptUnmap_pfn, Tlb.invalidate_slot, hhit]
    exact ⟨rfl, Tlb.invalidate_get_of_hit hhit⟩

end Sys2Proof.Machine

/-! The miss path of LOAD, STORE and XLATE: a refill from the page table (43_translator.md R77). -/
namespace Sys2Proof.Machine

/-! ### A resolved access -/

@[simp] theorem Access.response_data (a : Access) (pa : Nat) : (a.response pa).data = 0 := by
  simp [Access.response]

/-- What LOAD, STORE and XLATE do once their address is resolved, hit or miss: LOAD answers the word there, STORE writes it,
and all else is common (44_memory_access.md R81 to R83). -/
theorem completes_of_resolved {s : State} {i : Instr} {pid : Pid} {va : VirtAddr} {a : Access} {pa : Nat} {u : Tlb}
    (hv : s.virtualToPhysical va pid = .ok a pa { s with tlb := u }) (hw : s.hasWord pa = true)
    (hi : i = .load pid va ∨ i = .store pid va ∨ i = .xlate pid va) :
    ∃ t, Completes s i t ∧ t = { s with tlb := u, mem := t.mem, resp := t.resp } ∧
      (∀ b, t.memRead b = if i = .store pid va ∧ b = pa then s.din else s.memRead b) ∧
      t.resp = { a.response pa with data := if i = .load pid va then s.memRead pa else 0 } := by
  have hdata : a.response pa = { a.response pa with data := 0 } := by rw [← a.response_data pa]
  rcases hi with rfl | rfl | rfl
  · refine ⟨_, .load hv hw, rfl, fun b => (if_neg fun h => nomatch h.1).symm, ?_⟩
    rw [if_pos rfl]
    rfl
  · refine ⟨_, .store hv hw, rfl, fun b => ?_, ?_⟩
    · simp only [true_and]
      exact State.memRead_memWrite { s with tlb := u } pa b s.din
    · rw [if_neg nofun]
      exact hdata
  · refine ⟨_, .xlate hv, rfl, fun b => (if_neg fun h => nomatch h.1).symm, ?_⟩
    rw [if_neg nofun]
    exact hdata

/-! ### A refill -/

/-- What a translation answers when it inserted the page table's frame. -/
def Inserted.access (r : Inserted) (pfn : Pfn) : Access where
  pfn := pfn
  hit := false
  slot := r.slot
  fill := r.fill
  victim := r.victim

/-- A refill answers the insertion as MAP does, and the physical address besides. -/
theorem Inserted.access_response (r : Inserted) (pfn : Pfn) (pa : Nat) :
    (r.access pfn).response pa = { r.response pfn with pa := BitVec.ofNat 16 pa } := by
  unfold Access.response Inserted.access Inserted.response
  cases r.victim <;> rfl

/-- A miss that the page table maps resolves to the address in the page table's frame. -/
theorem State.virtualToPhysical_refill {s : State} {va : VirtAddr} {vpn : Vpn} {pid : Pid}
    (hvpn : vpn.toNat = va.toNat >>> s.cfgOff.toNat) (hmiss : s.tlb.lookupValid vpn pid = none)
    (hvalid : (s.pageTables.ptLookup pid vpn).valid = true) :
    s.virtualToPhysical va pid =
      .ok ((s.tlb.insert s.params.ageBits vpn pid (s.pageTables.ptLookup pid vpn).pfn).access
          (s.pageTables.ptLookup pid vpn).pfn)
        (composedAddress s (s.pageTables.ptLookup pid vpn).pfn va)
        { s with tlb := (s.tlb.insert s.params.ageBits vpn pid (s.pageTables.ptLookup pid vpn).pfn).tlb } := by
  refine State.virtualToPhysical_eq_ok_iff.2 ⟨?_, rfl⟩
  rw [State.vpnOf_eq hvpn]
  exact State.translate_refill hmiss hvalid

/-- Why a refill never reuses a slot: by I6 of 41_tlb.md R72, a mapped tag that no valid slot carries stands in no slot. -/
theorem State.MappedTagsLive.lookup_eq_none {s : State} (h : s.MappedTagsLive) {vpn : Vpn} {pid : Pid}
    (hmiss : ∀ j : Slot, ¬((s.tlb.get j).valid = true ∧ (s.tlb.get j).vpn = vpn ∧ (s.tlb.get j).pid = pid))
    (hvalid : (s.pageTables.ptLookup pid vpn).valid = true) : s.tlb.lookup vpn pid = none := by
  refine Tlb.lookup_eq_none_iff.2 fun j ⟨hvpn, hpid⟩ => ?_
  obtain ⟨k, hk, hkvpn, hkpid⟩ := h j (by rwa [hvpn, hpid])
  exact hmiss k ⟨hk, hkvpn.trans hvpn, hkpid.trans hpid⟩

/-- Settles O29: the miss resolves by an insertion, of a tag that no slot carries, and the access completes there. -/
theorem missRefillsFromPageTable : Obligations.MissRefillsFromPageTable := by
  rintro s pid va vpn i ⟨-, -, -, htlb, hpt, -, -, -, -, hlive⟩ ⟨hh, hconf⟩ hva hvpn hmiss hvalid hi
  have hnone : s.tlb.lookup vpn pid = none := State.MappedTagsLive.lookup_eq_none hlive hmiss hvalid
  have hv := State.virtualToPhysical_refill hvpn (Tlb.lookupValid_eq_none_iff.2 hmiss) hvalid
  have hw := State.hasWord_of_virtualToPhysical htlb hpt hv
  obtain ⟨t, hcompletes, hframe, hmem, hresp⟩ := completes_of_resolved hv hw hi
  have hinsert : t.tlb = (s.tlb.insert s.params.ageBits vpn pid (s.pageTables.ptLookup pid vpn).pfn).tlb :=
    congrArg State.tlb hframe
  have hgate : s.gateOpen i = true := by rcases hi with rfl | rfl | rfl <;> exact hconf
  have hrange : s.operandsInRange i = true := by rcases hi with rfl | rfl | rfl <;> exact decide_eq_true hva
  rw [Inserted.access_response] at hresp
  have hslot : t.resp.slot = (s.tlb.selectRefill vpn pid).1 := by simp [hresp]
  refine ⟨t, hcompletes.exec_eq hh hgate hrange, ?_, ?_, fun j hj => ?_, hmem, ?_, ?_⟩
  · rw [hinsert]
    exact hframe
  · rw [hslot, hinsert]
    exact s.tlb.insert_get_chosen s.params.ageBits vpn pid _
  · rw [hinsert]
    exact s.tlb.insert_get_of_ne s.params.ageBits vpn pid _ (hslot ▸ hj)
  · rw [hresp]
    exact refillsFreeOrOldest_insert hnone s.params.ageBits _
  · rw [hresp, Inserted.response_eq]

end Sys2Proof.Machine

/-! A hit of LOAD, STORE and XLATE, and XLATE beside LOAD (44_memory_access.md R81 to R83). -/
namespace Sys2Proof.Machine

/-! ### A hit -/

/-- What a translation answers when slot `k` maps the page (43_translator.md R77). -/
def Tlb.hitAccess (t : Tlb) (k : Slot) : Access where
  pfn := (t.get k).pfn
  hit := true
  slot := k
  fill := .none
  victim := none

/-- A hit evicts nothing and fills nothing: the response names the slot, its frame and the address (30_encoding.md R48). -/
theorem Tlb.hitAccess_response (t : Tlb) (k : Slot) (pa : Nat) :
    (t.hitAccess k).response pa = { Response.zero with
      hit := true, slotOk := true, slot := k, pfn := (t.get k).pfn, pa := BitVec.ofNat 16 pa } := rfl

/-- By I2 of 41_tlb.md R72 a valid slot is the one that `lookup_valid` finds for its tag. -/
theorem Tlb.ValidLowest.lookupValid_eq_some {t : Tlb} (h : t.ValidLowest) {k : Slot} (hvalid : (t.get k).valid = true) :
    t.lookupValid (t.get k).vpn (t.get k).pid = some k :=
  Tlb.lookupValid_eq_some_iff.2 ⟨⟨hvalid, rfl, rfl⟩, fun j _ hvpn hpid => h j k hvalid ⟨hvpn, hpid⟩⟩

/-- In a state with the invariant, an address whose page a valid slot maps resolves in that slot's frame, inside memory. -/
theorem State.Inv.resolves_hit {s : State} (h : s.Inv) {va : VirtAddr} {pid : Pid} {k : Slot}
    (hvalid : (s.tlb.get k).valid = true) (hvpn : (s.tlb.get k).vpn.toNat = va.toNat >>> s.cfgOff.toNat)
    (hpid : (s.tlb.get k).pid = pid) :
    s.virtualToPhysical va pid =
        .ok (s.tlb.hitAccess k) (composedAddress s (s.tlb.get k).pfn va)
          { s with tlb := s.tlb.hitTouch s.params k } ∧
      s.hasWord (composedAddress s (s.tlb.get k).pfn va) = true := by
  obtain ⟨-, -, -, htlb, hpt, -, -, hlowest, -⟩ := h
  have hlookup : s.tlb.lookupValid (s.vpnOf va) pid = some k := by
    rw [State.vpnOf_eq hvpn, ← hpid]
    exact Tlb.ValidLowest.lookupValid_eq_some hlowest hvalid
  have hv := State.virtualToPhysical_eq_ok_iff.2 ⟨State.translate_hit hlookup, rfl⟩
  have hw := State.hasWord_of_virtualToPhysical htlb hpt hv
  exact ⟨hv, hw⟩

/-- `hit_touch` does the bookkeeping of 41_tlb.md R69. -/
theorem hitBookkeeping_of_hitTouch {s t : State} {k : Slot} (h : t.tlb = s.tlb.hitTouch s.params k) :
    HitBookkeeping s t k := by
  refine ⟨fun hfifo => ?_, fun hlru j => ?_⟩
  · rw [h, Tlb.hitTouch, hfifo]
  · rw [h, Tlb.hitTouch_get, hlru]
    rfl

/-- Settles O26: the address resolves in slot `k`'s frame, where memory has a word, so the LOAD completes. -/
theorem loadHitReadsWord : Obligations.LoadHitReadsWord := by
  rintro s pid va k hs ⟨hh, hconf⟩ hva hvalid hvpn hpid
  obtain ⟨hv, hw⟩ := hs.resolves_hit hvalid hvpn hpid
  have hload := (Completes.load hv hw).exec_eq hh hconf (decide_eq_true hva)
  exact ⟨_, hload, rfl, hitBookkeeping_of_hitTouch rfl, by rw [State.answer_resp, Tlb.hitAccess_response]⟩

/-- Settles O27: as for the LOAD, and the memory is the one write at the resolved address. -/
theorem storeHitWritesWord : Obligations.StoreHitWritesWord := by
  rintro s pid va k hs ⟨hh, hconf⟩ hva hvalid hvpn hpid
  obtain ⟨hv, hw⟩ := hs.resolves_hit hvalid hvpn hpid
  have hstore := (Completes.store hv hw).exec_eq hh hconf (decide_eq_true hva)
  refine ⟨_, hstore, rfl, hitBookkeeping_of_hitTouch rfl, fun b => ?_, Tlb.hitAccess_response _ k _⟩
  exact State.memRead_memWrite { s with tlb := s.tlb.hitTouch s.params k } _ b s.din

/-- Settles O28: the address resolves in slot `k`'s frame, and the XLATE answers it. -/
theorem xlateHitTranslates : Obligations.XlateHitTranslates := by
  rintro s pid va k hs ⟨hh, hconf⟩ hva hvalid hvpn hpid
  obtain ⟨hv, -⟩ := hs.resolves_hit hvalid hvpn hpid
  have hxlate := (Completes.xlate hv).exec_eq hh hconf (decide_eq_true hva)
  exact ⟨_, hxlate, rfl, hitBookkeeping_of_hitTouch rfl, Tlb.hitAccess_response _ k _⟩

/-! ### XLATE beside LOAD -/

/-- The state with 0 for the data that its response answers. -/
def State.withoutData (s : State) : State := { s with resp := { s.resp with data := 0 } }

/-- An error status answers no data. -/
theorem State.withoutData_raise (s : State) (e : Status) : (s.raise e).withoutData = s.raise e := by
  cases e <;> rfl

/-- A completed LOAD without its data is the state that a completed XLATE leaves. -/
theorem State.withoutData_answer_access (s : State) (a : Access) (pa : Nat) (w : MemWord) :
    (s.answer { a.response pa with data := w }).withoutData = s.answer (a.response pa) := by
  have hdata : a.response pa = { a.response pa with data := 0 } := by rw [← a.response_data pa]
  exact congrArg s.answer hdata.symm

/-- The same checks in front of two effects refuse alike, without data. -/
theorem State.perform_withoutData {gate inRange : Bool} {f g : State → Result} {s t : State}
    (h : s.perform gate inRange f = .next t) (hfg : f s = .next t → g s = .next t.withoutData) :
    s.perform gate inRange g = .next t.withoutData := by
  unfold State.perform at h ⊢
  split_ifs at h ⊢
  case neg => exact hfg h
  all_goals rw [← Host.Outcome.next.inj h, State.withoutData_raise]

/-- Two accesses of one address translate alike, and PAGE_NOT_MAPPED answers no data. -/
theorem State.access_withoutData {s t : State} {va : VirtAddr} {pid : Pid} {f g : Access → Nat → State → Result}
    (h : s.access va pid f = .next t) (hfg : ∀ a pa u, f a pa u = .next t → g a pa u = .next t.withoutData) :
    s.access va pid g = .next t.withoutData := by
  cases hv : s.virtualToPhysical va pid with
  | pageNotMapped =>
    simp only [State.access, hv] at h ⊢
    rw [← Host.Outcome.next.inj h, State.withoutData_raise]
  | ok a pa u =>
    rw [State.access_of_ok hv] at h ⊢
    exact hfg a pa u h

/-- Settles O37: LOAD and XLATE are refused alike and translate alike, and then LOAD answers one word more. -/
theorem xlateIsLoadWithoutData : Obligations.XlateIsLoadWithoutData := by
  intro s t pid va h
  refine (execXlate_eq_access pid va s).trans (State.perform_withoutData
    ((execLoad_eq_access pid va s).symm.trans h) fun heff => State.access_withoutData heff fun a pa u hload => ?_)
  obtain ⟨-, rfl⟩ := next_of_hasWord hload
  rw [State.withoutData_answer_access]

end Sys2Proof.Machine

/-! The two ends of the command port (45_command_port.md R84, R87): a decoded command word is performed on the latched state,
and a command that is refused answers its status alone. -/
namespace Sys2Proof.Machine

/-- A halted core answers HALTED whatever the command (60_exceptions.md R92). -/
theorem exec_of_halted {s : State} (h : s.halted = true) (i : Instr) : exec i s = .next (s.raise .halted) := by
  cases i <;>
    simp only [exec, execDefine, execMap, execUnmap, execLoad, execStore, execXlate, execRdtlb, execRdpte,
      State.perform_of_halted h]

/-- `step_cases` when the next input is a given command word. -/
theorem step_command_cases {s : State} {cw : CommandWord} {d : Nat} {rest : List PortEvent}
    (hport : s.port = .command cw d :: rest) :
    (s.halted = true ∧ step s = .next ((s.latch d rest).raise .halted)) ∨
      (s.halted = false ∧ (∃ why, decode cw = .illegal why) ∧
        step s = .next ((s.latch d rest).raise .illegalCommand)) ∨
      (s.halted = false ∧ ∃ i, decode cw = .command i ∧ step s = exec i (s.latch d rest)) := by
  rcases step_cases s with ⟨hp, -⟩ | ⟨_, hp, -⟩ | ⟨cw', d', rest', hp, hcases⟩
  · simp [hport] at hp
  · simp [hport] at hp
  · obtain ⟨⟨rfl, rfl⟩, rfl⟩ : (cw = cw' ∧ d = d') ∧ rest = rest' := by simpa [hport] using hp
    exact hcases

/-- A step that answers a command word answered an error status, or the word's command completed. -/
theorem step_command_eq_next {s t : State} {cw : CommandWord} {d : Nat} {rest : List PortEvent}
    (hport : s.port = .command cw d :: rest) (hstep : step s = .next t) :
    AnswersError (s.latch d rest) t ∨ ∃ i, decode cw = .command i ∧ Completes (s.latch d rest) i t := by
  rcases step_command_cases hport with ⟨-, hs⟩ | ⟨-, -, hs⟩ | ⟨-, i, hdec, hs⟩ <;> rw [hs] at hstep
  · exact .inl ⟨.halted, by decide, (Host.Outcome.next.inj hstep).symm⟩
  · exact .inl ⟨.illegalCommand, by decide, (Host.Outcome.next.inj hstep).symm⟩
  · exact (exec_eq_next hstep).imp_right fun ⟨_, _, _, hd⟩ => ⟨i, hdec, hd⟩

theorem AnswersError.resp_eq {s t : State} (h : AnswersError s t) :
    t.resp = { Response.zero with status := t.resp.status } := by
  obtain ⟨e, -, rfl⟩ := h
  rw [State.raise_resp, Response.only_status]
  rfl

/-- Settles O18: an error answer is a status alone, and a command that completes answers OK. -/
theorem refusedCommandsReportStatusOnly : Obligations.RefusedCommandsReportStatusOnly := by
  intro s t cw d rest hport hstep hne
  rcases step_command_eq_next hport hstep with herr | ⟨i, -, hd⟩
  · exact herr.resp_eq
  · exact absurd hd.status_ok hne

/-- Settles O1: a halted core answers HALTED before it decodes, which is what the command's own check answers; a word that
decodes is performed. -/
theorem stepRunsDecodedCommand : Obligations.StepRunsDecodedCommand := by
  intro s cw d rest i hport hdec
  change step s = exec i (s.latch d rest)
  rcases step_command_cases hport with ⟨hh, hs⟩ | ⟨-, ⟨why, hill⟩, -⟩ | ⟨-, j, hj, hs⟩
  · have hhalt : (s.latch d rest).halted = true := hh
    exact hs.trans (exec_of_halted hhalt i).symm
  · exact absurd (hdec.symm.trans hill) (by simp)
  · obtain rfl := Decoded.command.inj (hdec.symm.trans hj)
    exact hs

end Sys2Proof.Machine

/-! The order of the checks (60_exceptions.md R97): every command is one effect behind the checks of 45_command_port.md R84,
and the first check that fails is what it answers. -/
namespace Sys2Proof.Machine

/-! ### One effect behind the checks -/

theorem State.status_of_raise_eq_next {s t : State} {e : Status} (h : (.next (s.raise e) : Result) = .next t) :
    t.resp.status = e := by
  rw [← Host.Outcome.next.inj h, State.raise_resp, Response.only_status]

/-- An access answers PAGE_NOT_MAPPED, or what follows its translation answers. -/
theorem State.access_status {s t : State} {va : VirtAddr} {pid : Pid} {f : Access → Nat → State → Result}
    (h : s.access va pid f = .next t) (hf : ∀ a pa u, f a pa u = .next t → t.resp.status = .ok) :
    t.resp.status = .ok ∨ t.resp.status = .pageNotMapped := by
  unfold State.access at h
  split at h
  · exact .inr (State.status_of_raise_eq_next h)
  · exact .inl (hf _ _ _ h)

/-- The checks of 45_command_port.md R84 as `State.gateOpen` and `State.operandsInRange` name them, and the two statuses with
which a command that passes them can end. -/
theorem exec_eq_perform (i : Instr) (s : State) :
    ∃ effect : State → Result, exec i s = s.perform (s.gateOpen i) (s.operandsInRange i) effect ∧
      ∀ t, effect s = .next t → t.resp.status = .ok ∨ t.resp.status = .pageNotMapped := by
  cases i with
  | define off pfnb vpnb =>
    have hgate : (!s.configured && sizeLegal off && sizeLegal pfnb && sizeLegal vpnb) =
        s.gateOpen (.define off pfnb vpnb) := by
      simp only [State.gateOpen, Instr.wellFormed, sizeLegal, Bool.and_assoc]
    rw [← hgate]
    refine ⟨_, show execDefine off pfnb vpnb s = _ from rfl, fun t h => .inl ?_⟩
    rw [← Host.Outcome.next.inj h, State.answer_resp, Response.zero_status]
  | map pid vpn pfn =>
    have hrange : (s.vpnInRange vpn && s.pfnInRange pfn) = s.operandsInRange (.map pid vpn pfn) := by
      simp only [State.operandsInRange, State.vpnInRange, State.pfnInRange, Bool.decide_and]
    rw [← hrange]
    refine ⟨_, show execMap pid vpn pfn s = _ from rfl, fun t h => .inl ?_⟩
    rw [← Host.Outcome.next.inj h, State.answer_resp, Inserted.response_status]
  | unmap pid vpn =>
    refine ⟨_, show execUnmap pid vpn s = _ from rfl, fun t h => .inl ?_⟩
    rw [← Host.Outcome.next.inj h, State.answer_resp, unmapResponse_status]
  | load pid va =>
    refine ⟨_, execLoad_eq_access pid va s, fun t h => State.access_status h fun a pa u hf => ?_⟩
    obtain ⟨-, rfl⟩ := next_of_hasWord hf
    rw [State.answer_resp, Access.response_status]
  | store pid va =>
    refine ⟨_, execStore_eq_access pid va s, fun t h => State.access_status h fun a pa u hf => ?_⟩
    obtain ⟨-, rfl⟩ := next_of_hasWord hf
    rw [State.answer_resp, Access.response_status]
  | xlate pid va =>
    refine ⟨_, execXlate_eq_access pid va s, fun t h => State.access_status h fun a pa u hf => ?_⟩
    rw [← Host.Outcome.next.inj hf, State.answer_resp, Access.response_status]
  | rdtlb k =>
    refine ⟨_, show execRdtlb k s = _ from rfl, fun t h => .inl ?_⟩
    rw [← Host.Outcome.next.inj h, State.answer_resp, tlbReadout_status]
  | rdpte pid vpn =>
    refine ⟨_, show execRdpte pid vpn s = _ from rfl, fun t h => .inl ?_⟩
    rw [← Host.Outcome.next.inj h, State.answer_resp, pteReadout_status]

theorem exec_of_gate_shut {s : State} {i : Instr} (hh : s.halted = false) (hg : s.gateOpen i = false) :
    exec i s = .next (s.raise .configError) := by
  obtain ⟨effect, hexec, -⟩ := exec_eq_perform i s
  rw [hexec, hg]
  simp [State.perform, hh]

theorem exec_of_out_of_range {s : State} {i : Instr} (hh : s.halted = false) (hg : s.gateOpen i = true)
    (hr : s.operandsInRange i = false) : exec i s = .next (s.raise .operandRange) := by
  obtain ⟨effect, hexec, -⟩ := exec_eq_perform i s
  rw [hexec, hg, hr]
  simp [State.perform, hh]

theorem exec_status_of_checks_passed {s t : State} {i : Instr} (hh : s.halted = false) (hg : s.gateOpen i = true)
    (hr : s.operandsInRange i = true) (h : exec i s = .next t) :
    t.resp.status = .ok ∨ t.resp.status = .pageNotMapped := by
  obtain ⟨effect, hexec, hstatus⟩ := exec_eq_perform i s
  rw [hexec, State.perform_of_ok hh hg hr] at h
  exact hstatus t h

/-! ### Every command word -/

/-- Settles O17: the port answers HALTED and ILLEGAL_COMMAND itself; a decoded command meets the gate and then the range. -/
theorem firstFailedCheckDecidesStatus : Obligations.FirstFailedCheckDecidesStatus := by
  intro s t cw d rest hport hstep
  rcases step_command_cases hport with ⟨hh, hs⟩ | ⟨hh, ⟨why, hdec⟩, hs⟩ | ⟨hh, i, hdec, hs⟩ <;> rw [hs] at hstep
  · rw [if_pos hh]
    exact State.status_of_raise_eq_next hstep
  · rw [if_neg (by simp [hh]), hdec]
    exact State.status_of_raise_eq_next hstep
  · have hhalt : (s.latch d rest).halted = false := hh
    have hgate : (s.latch d rest).gateOpen i = s.gateOpen i := rfl
    have hrange : (s.latch d rest).operandsInRange i = s.operandsInRange i := rfl
    rw [if_neg (by simp [hh]), hdec]
    dsimp only
    rw [← hgate, ← hrange]
    split_ifs with hg hr
    · exact State.status_of_raise_eq_next ((exec_of_gate_shut hhalt hg).symm.trans hstep)
    · rw [Bool.not_eq_false] at hg
      exact State.status_of_raise_eq_next ((exec_of_out_of_range hhalt hg hr).symm.trans hstep)
    · rw [Bool.not_eq_false] at hg hr
      exact exec_status_of_checks_passed hhalt hg hr hstep

/-- Settles O20: none of the statuses that O17 allows is the host's. -/
theorem hostStatusesNeverProduced : Obligations.HostStatusesNeverProduced := by
  intro s t cw d rest hport hstep
  have hfirst := firstFailedCheckDecidesStatus s t cw d rest hport hstep
  cases hdec : decode cw with
  | illegal why =>
    rw [hdec] at hfirst
    dsimp only at hfirst
    split_ifs at hfirst <;> simp [hfirst]
  | command i =>
    rw [hdec] at hfirst
    dsimp only at hfirst
    split_ifs at hfirst
    case neg => rcases hfirst with h | h <;> simp [h]
    all_goals simp [hfirst]

/-- Raising a status writes the halt registers and the response at most. -/
theorem State.raise_frame (s : State) (e : Status) :
    s.raise e = { s with
      halted := (s.raise e).halted, haltCause := (s.raise e).haltCause
      resp := { Response.zero with status := e } } := by
  cases he : e.fatal with
  | true => rw [s.raise_of_fatal e he]; rfl
  | false => rw [s.raise_of_not_fatal e he]; rfl

/-- Settles O19: a non-OK answer is one raised status on the latched state. -/
theorem faultsArePrecise : Obligations.FaultsArePrecise := by
  intro s t cw d rest hport hstep hne
  rcases step_command_eq_next hport hstep with ⟨e, -, rfl⟩ | ⟨i, -, hd⟩
  · simp only [State.raise_resp, Response.only_status]
    refine ⟨?_, ?_, ?_⟩
    · rw [State.raise_din]
      exact State.raise_frame _ e
    · rintro (rfl | rfl | rfl) <;> exact ⟨rfl, rfl⟩
    · rintro (rfl | rfl) <;> exact ⟨rfl, rfl⟩
  · exact absurd hd.status_ok hne

/-! ### The configuration gate and the operand range -/

/-- Settles O15: each of the three clauses is a shut gate. -/
theorem configurationErrorsHaltCore : Obligations.ConfigurationErrorsHaltCore := by
  intro s hh
  refine ⟨fun hconf i hi => ?_, fun hconf off pfnb vpnb => ?_, fun off pfnb vpnb hsize => ?_⟩
  · have hgate : s.gateOpen i = false := by
      cases i with
      | define off pfnb vpnb => exact absurd rfl (hi off pfnb vpnb)
      | map | unmap | load | store | xlate | rdtlb | rdpte => exact hconf
    exact exec_of_gate_shut hh hgate
  · exact exec_of_gate_shut hh (by simp [State.gateOpen, hconf])
  · have hsizes : Instr.wellFormed (.define off pfnb vpnb) = false := by
      simp only [Instr.wellFormed, Bool.and_eq_false_iff, decide_eq_false_iff_not]
      omega
    exact exec_of_gate_shut hh (by simp [State.gateOpen, hsizes])

/-- Settles O16: the gate is open on a ready core, and the operand named is out of range. -/
theorem operandRangeErrorsHaltCore : Obligations.OperandRangeErrorsHaltCore := by
  rintro s ⟨hh, hconf⟩ pid
  refine ⟨fun vpn pfn hout => ?_, fun vpn i hout hi => ?_, fun va i hout hi => ?_⟩
  · exact exec_of_out_of_range hh hconf (decide_eq_false (by omega))
  · rcases hi with rfl | rfl <;> exact exec_of_out_of_range hh hconf (decide_eq_false hout.not_gt)
  · rcases hi with rfl | rfl | rfl <;> exact exec_of_out_of_range hh hconf (decide_eq_false hout.not_gt)

end Sys2Proof.Machine

/-! The halted state, and what halts it at the port (60_exceptions.md R90, R92, R99, R107). -/
namespace Sys2Proof.Machine

/-- Settles O2: a core that is not halted decodes the word, and raises ILLEGAL_COMMAND on the latched state. -/
theorem illegalWordHaltsCore : Obligations.IllegalWordHaltsCore := by
  intro s cw d rest why hh hport hill
  rcases step_command_cases hport with ⟨hhalted, -⟩ | ⟨-, -, hs⟩ | ⟨-, i, hdec, -⟩
  · exact absurd (hh.symm.trans hhalted) Bool.false_ne_true
  · exact hs
  · exact absurd (hill.symm.trans hdec) (by simp)

/-- Settles O3: nothing is taken off an empty port. -/
theorem idleCoreKeepsState : Obligations.IdleCoreKeepsState := by
  intro s hport
  rcases step_cases s with ⟨-, hs⟩ | ⟨rest, hp, -⟩ | ⟨cw, d, rest, hp, -⟩
  · exact hs
  · simp [hport] at hp
  · simp [hport] at hp

/-- Settles O4: HALTED is not fatal, so raising it writes the response alone, at the port as in a command. -/
theorem haltedCoreAnswersHalted : Obligations.HaltedCoreAnswersHalted := by
  refine ⟨fun s cw d rest hh hport => ?_, fun i s hh => exec_of_halted hh i⟩
  rcases step_command_cases hport with ⟨-, hs⟩ | ⟨hrun, -⟩ | ⟨hrun, -⟩
  · exact hs
  · exact absurd (hrun.symm.trans hh) Bool.false_ne_true
  · exact absurd (hrun.symm.trans hh) Bool.false_ne_true

/-- Settles O5: an idle step keeps the state, and a command word is answered HALTED, which keeps the halt record. -/
theorem onlyResetLeavesHaltedState : Obligations.OnlyResetLeavesHaltedState := by
  intro s t hh hstep
  rcases step_cases s with ⟨-, hs⟩ | ⟨rest, hport, -⟩ | ⟨cw, d, rest, hport, -⟩
  · obtain rfl := Host.Outcome.next.inj (hs.symm.trans hstep)
    exact .inl ⟨hh, rfl⟩
  · exact .inr ⟨rest, hport⟩
  · have hs := haltedCoreAnswersHalted.1 s cw d rest hh hport
    obtain rfl := Host.Outcome.next.inj (hs.symm.trans hstep)
    exact .inl ⟨hh, rfl⟩

end Sys2Proof.Machine

/-! Pages that are not mapped: an access answers PAGE_NOT_MAPPED (60_exceptions.md R88), an UNMAP is a no-op (R95). -/
namespace Sys2Proof.Machine

/-! ### An access -/

/-- LOAD, STORE and XLATE are accesses behind the same checks. -/
theorem exists_exec_eq_access {i : Instr} {pid : Pid} {va : VirtAddr}
    (hi : i = .load pid va ∨ i = .store pid va ∨ i = .xlate pid va) (s : State) :
    ∃ f, exec i s = s.perform s.configured (s.vaInRange va) fun s => s.access va pid f := by
  rcases hi with rfl | rfl | rfl
  · exact ⟨_, execLoad_eq_access pid va s⟩
  · exact ⟨_, execStore_eq_access pid va s⟩
  · exact ⟨_, execXlate_eq_access pid va s⟩

theorem State.access_of_pageNotMapped {s : State} {va : VirtAddr} {pid : Pid} {f : Access → Nat → State → Result}
    (h : s.virtualToPhysical va pid = .pageNotMapped) : s.access va pid f = .next (s.raise .pageNotMapped) := by
  simp only [State.access, h]

/-- Settles O30: the translation misses in the TLB and in the page table, and the status it raises is not fatal. -/
theorem unmappedAccessAnswersPageNotMapped : Obligations.UnmappedAccessAnswersPageNotMapped := by
  rintro s pid va vpn i ⟨hh, hconf⟩ hva hvpn hmiss hinvalid hi
  have hv : s.virtualToPhysical va pid = .pageNotMapped := by
    rw [State.virtualToPhysical_eq_pageNotMapped_iff, State.vpnOf_eq hvpn, State.translate_eq_pageNotMapped_iff]
    exact ⟨Tlb.lookupValid_eq_none_iff.2 hmiss, hinvalid⟩
  obtain ⟨f, hexec⟩ := exists_exec_eq_access hi s
  calc exec i s
    _ = _ := hexec
    _ = s.access va pid f := State.perform_of_ok hh hconf (decide_eq_true hva)
    _ = .next (s.raise .pageNotMapped) := State.access_of_pageNotMapped hv

/-! ### An UNMAP -/

/-- Writing back what an index holds leaves a canonical array as it was. -/
theorem Cells.write_read {α : Type} [DecidableEq α] {d : α} {c : Cells α} (h : Cells.wf d c) (a : Nat) :
    Cells.write d c a (Cells.read d c a) = c := by
  refine Cells.eq_of_read_eq (Cells.write_wf a _ h) h fun b => ?_
  rw [Cells.read_write]
  split_ifs with hb
  · rw [hb]
  · rfl

/-- `pt_unmap` of an entry that is not valid writes the entry back. -/
theorem PageTables.ptUnmap_of_not_valid {pt : PageTables} (hwf : PageTables.wf pt) {pid : Pid} {vpn : Vpn}
    (h : (pt.ptLookup pid vpn).valid = false) : pt.ptUnmap pid vpn = pt := by
  have hentry : { pt.ptLookup pid vpn with valid := false } = pt.ptLookup pid vpn := by rw [← h]
  rw [PageTables.ptUnmap, hentry]
  exact Cells.write_read hwf (ptIndex pid vpn)

/-- By I3 of 41_tlb.md R72 no valid slot carries a tag whose page-table entry is not valid. -/
theorem State.TlbAgreesWithPageTables.lookupValid_eq_none {s : State} (h : s.TlbAgreesWithPageTables) {pid : Pid}
    {vpn : Vpn} (hinvalid : (s.pageTables.ptLookup pid vpn).valid = false) : s.tlb.lookupValid vpn pid = none := by
  refine Tlb.lookupValid_eq_none_iff.2 ?_
  rintro j ⟨hvalid, rfl, rfl⟩
  obtain ⟨hmapped, -⟩ := h j hvalid
  exact absurd (hinvalid.symm.trans hmapped) Bool.false_ne_true

/-- Settles O25: `invalidate` finds no slot, and `pt_unmap` writes the entry back. -/
theorem unmapWithoutMappingIsNoOp : Obligations.UnmapWithoutMappingIsNoOp := by
  rintro s pid vpn ⟨-, -, -, -, ⟨hwf, -⟩, -, -, -, hagrees, -⟩ ⟨hh, hconf⟩ hvpn hinvalid
  have hmiss : s.tlb.lookupValid vpn pid = none := State.TlbAgreesWithPageTables.lookupValid_eq_none hagrees hinvalid
  have hunmap := (Completes.unmap (s := s) pid vpn).exec_eq hh hconf (decide_eq_true hvpn)
  rw [Tlb.invalidate_of_miss hmiss, PageTables.ptUnmap_of_not_valid hwf hinvalid] at hunmap
  exact hunmap

end Sys2Proof.Machine

/-! Around reset and DEFINE (70_reset_and_hazards.md R108, R110): the reset state has the invariant, what reset leaves
unspecified stays unobservable until DEFINE overwrites it, and DEFINE establishes zeros. -/
namespace Sys2Proof.Machine

/-! ### The reset state and DEFINE -/

theorem Config.params_legal : Config.params.Legal :=
  ⟨Nat.succ_pos _, Nat.succ_pos _, Nat.succ_pos _⟩

/-- Settles O44: the reset state is the restart of itself, which needs legal parameters alone. -/
theorem resetStateHasInvariant : Obligations.ResetStateHasInvariant :=
  State.restart_inv (s := .reset) Config.params_legal

/-- Settles O21: the gate is open, so DEFINE completes, and the cleared structures read as zero everywhere. -/
theorem defineEstablishesZeroState : Obligations.DefineEstablishesZeroState := by
  rintro s off pfnb vpnb ⟨hcause, -⟩ hh hconf hoff hpfnb hvpnb
  have hgate : s.gateOpen (.define off pfnb vpnb) = true := by
    simp [State.gateOpen, Instr.wellFormed, hconf, hoff, hpfnb, hvpnb]
  refine ⟨_, (Completes.define off pfnb vpnb).exec_eq hh hgate rfl, rfl, hh, hcause hh, rfl, rfl, rfl, fun k => ?_,
    fun p v => ?_, fun a => ?_, rfl, rfl, rfl, rfl⟩
  · exact Tlb.get_zero k
  · exact PageTables.ptLookup_nil p v
  · exact Cells.read_nil 0 a

/-! ### What reset leaves unspecified -/

/-- Two results go on, to equal states or to unconfigured ones that differ only in what reset leaves unspecified. -/
def GoOnAlike (r r' : Result) : Prop :=
  ∃ s' t', r = .next s' ∧ r' = .next t' ∧ (s' = t' ∨ s'.SameButUnspecified t')

section
variable {s t : State}

/-- The other core is the first with its unspecified fields replaced. -/
theorem State.SameButUnspecified.exists_eq (h : s.SameButUnspecified t) :
    ∃ off pfnb vpnb tlb pt mem,
      t = { s with cfgOff := off, cfgPfn := pfnb, cfgVpn := vpnb, tlb := tlb, pageTables := pt, mem := mem } :=
  ⟨_, _, _, _, _, _, h.2⟩

theorem State.SameButUnspecified.halted_eq (h : s.SameButUnspecified t) : t.halted = s.halted := by
  obtain ⟨_, _, _, _, _, _, rfl⟩ := h.exists_eq
  rfl

theorem State.SameButUnspecified.port_eq (h : s.SameButUnspecified t) : t.port = s.port := by
  obtain ⟨_, _, _, _, _, _, rfl⟩ := h.exists_eq
  rfl

/-- The configuration gate sees none of the unspecified fields. -/
theorem State.SameButUnspecified.gateOpen_eq (h : s.SameButUnspecified t) (i : Instr) :
    t.gateOpen i = s.gateOpen i := by
  obtain ⟨_, _, _, _, _, _, rfl⟩ := h.exists_eq
  cases i <;> rfl

theorem State.SameButUnspecified.latch (h : s.SameButUnspecified t) (d : Nat) (rest : List PortEvent) :
    (s.latch d rest).SameButUnspecified (t.latch d rest) := by
  obtain ⟨_, _, _, _, _, _, rfl⟩ := h.exists_eq
  exact ⟨h.1, rfl⟩

/-- Raising a status neither reads nor writes the unspecified fields. -/
theorem State.SameButUnspecified.raise (h : s.SameButUnspecified t) (e : Status) :
    (s.raise e).SameButUnspecified (t.raise e) := by
  obtain ⟨_, _, _, _, _, _, rfl⟩ := h.exists_eq
  refine ⟨(s.raise_configured e).trans h.1, ?_⟩
  unfold State.raise
  split <;> rfl

/-- DEFINE overwrites every unspecified field. -/
theorem State.SameButUnspecified.established_eq (h : s.SameButUnspecified t) (off pfnb vpnb : SizeField) :
    s.established off pfnb vpnb = t.established off pfnb vpnb := by
  obtain ⟨_, _, _, _, _, _, rfl⟩ := h.exists_eq
  rfl

/-- So does the reset input. -/
theorem State.SameButUnspecified.restart_eq (h : s.SameButUnspecified t) (rest : List PortEvent) :
    { s with port := rest }.restart = { t with port := rest }.restart := by
  obtain ⟨_, _, _, _, _, _, rfl⟩ := h.exists_eq
  rfl

theorem State.SameButUnspecified.goOnAlike_raise (h : s.SameButUnspecified t) (e : Status) :
    GoOnAlike (.next (s.raise e)) (.next (t.raise e)) :=
  ⟨_, _, rfl, rfl, .inr (h.raise e)⟩

/-- DEFINE alone passes the gate of an unconfigured core. -/
theorem State.eq_define_of_gateOpen {i : Instr} (hconf : s.configured = false) (hg : s.gateOpen i = true) :
    ∃ off pfnb vpnb, i = .define off pfnb vpnb := by
  cases i with
  | define off pfnb vpnb => exact ⟨off, pfnb, vpnb, rfl⟩
  | map | unmap | load | store | xlate | rdtlb | rdpte => exact absurd (hconf.symm.trans hg) Bool.false_ne_true

/-- A command is refused alike by both cores, or it is a DEFINE that makes them equal. -/
theorem State.SameButUnspecified.exec_alike (h : s.SameButUnspecified t) (i : Instr) :
    GoOnAlike (exec i s) (exec i t) := by
  cases hh : s.halted with
  | true =>
    rw [exec_of_halted hh, exec_of_halted (h.halted_eq.trans hh)]
    exact h.goOnAlike_raise .halted
  | false =>
    have hh' : t.halted = false := h.halted_eq.trans hh
    cases hg : s.gateOpen i with
    | false =>
      rw [exec_of_gate_shut hh hg, exec_of_gate_shut hh' ((h.gateOpen_eq i).trans hg)]
      exact h.goOnAlike_raise .configError
    | true =>
      obtain ⟨off, pfnb, vpnb, rfl⟩ := State.eq_define_of_gateOpen h.1 hg
      have hg' : t.gateOpen (.define off pfnb vpnb) = true := (h.gateOpen_eq _).trans hg
      exact ⟨_, _, (Completes.define off pfnb vpnb).exec_eq hh hg rfl,
        (Completes.define off pfnb vpnb).exec_eq hh' hg' rfl,
        .inl (congrArg (State.answer · .zero) (h.established_eq off pfnb vpnb))⟩

theorem step_of_reset {rest : List PortEvent} (hport : s.port = .reset :: rest) :
    step s = .next { s with port := rest }.restart := by
  simp only [step, State.accept, hport]

/-- A word that does not decode raises HALTED or ILLEGAL_COMMAND, as the core is halted or not. -/
theorem step_of_illegal {cw : CommandWord} {d : Nat} {rest : List PortEvent} {why : Illegal}
    (hport : s.port = .command cw d :: rest) (hill : decode cw = .illegal why) :
    step s = .next ((s.latch d rest).raise (if s.halted then .halted else .illegalCommand)) := by
  cases hh : s.halted with
  | true => exact haltedCoreAnswersHalted.1 s cw d rest hh hport
  | false => exact illegalWordHaltsCore s cw d rest why hh hport hill

/-- Two unconfigured cores that differ only in what reset leaves unspecified step alike. -/
theorem State.SameButUnspecified.step_alike (h : s.SameButUnspecified t) : GoOnAlike (step s) (step t) := by
  have hports := h.port_eq
  cases hport : s.port with
  | nil =>
    rw [idleCoreKeepsState s hport, idleCoreKeepsState t (hports.trans hport)]
    exact ⟨_, _, rfl, rfl, .inr h⟩
  | cons event rest =>
    cases event with
    | reset =>
      rw [step_of_reset hport, step_of_reset (hports.trans hport)]
      exact ⟨_, _, rfl, rfl, .inl (h.restart_eq rest)⟩
    | command cw d =>
      cases hdec : decode cw with
      | illegal why =>
        rw [step_of_illegal hport hdec, step_of_illegal (hports.trans hport) hdec, h.halted_eq]
        exact (h.latch d rest).goOnAlike_raise _
      | command i =>
        have hs : step s = exec i (s.latch d rest) := stepRunsDecodedCommand s cw d rest i hport hdec
        have ht : step t = exec i (t.latch d rest) := stepRunsDecodedCommand t cw d rest i (hports.trans hport) hdec
        rw [hs, ht]
        exact (h.latch d rest).exec_alike i

end

/-- Settles O6: the reset input restarts the core, and an unconfigured core reads nothing that reset leaves
unspecified. -/
theorem unspecifiedResetStateUnobservable : Obligations.UnspecifiedResetStateUnobservable :=
  ⟨fun _ _ hport => ⟨_, step_of_reset hport, rfl, rfl, rfl, rfl, rfl⟩, fun _ _ h => h.step_alike⟩

end Sys2Proof.Machine

/-! The mapping hazards (70_reset_and_hazards.md R114): a translation sees the MAP or the UNMAP just before it. -/
namespace Sys2Proof.Machine

/-- A command that answers OK has passed its checks and completed. -/
theorem checks_passed_of_status_ok {i : Instr} {s t : State} (h : exec i s = .next t) (hok : t.resp.status = .ok) :
    s.halted = false ∧ s.gateOpen i = true ∧ s.operandsInRange i = true ∧ Completes s i t := by
  rcases exec_eq_next h with ⟨e, he, rfl⟩ | hpassed
  · exact absurd (by simpa using hok) he
  · exact hpassed

/-- Every address of a page in range is in range (45_command_port.md R85). -/
theorem State.va_lt_of_page_lt {s : State} {va : VirtAddr} {vpn : Vpn} (hpage : va.toNat >>> s.cfgOff.toNat = vpn.toNat)
    (hvpn : vpn.toNat < 2 ^ s.cfgVpn.toNat) : va.toNat < 2 ^ (s.cfgVpn.toNat + s.cfgOff.toNat) := by
  rwa [← hpage, Nat.shiftRight_eq_div_pow, Nat.div_lt_iff_lt_mul (Nat.two_pow_pos _), ← Nat.pow_add] at hvpn

/-! ### After a MAP -/

/-- The slot that an insertion fills is the one found for its tag: no slot below it carries the tag. -/
theorem Tlb.lookupValid_insert (t : Tlb) (a : Nat) (vpn : Vpn) (pid : Pid) (pfn : Pfn) :
    (t.insert a vpn pid pfn).tlb.lookupValid vpn pid = some (t.selectRefill vpn pid).1 := by
  refine Tlb.lookupValid_eq_some_iff.2 ⟨by simp [Tlb.insert_get_chosen], fun j _ hvpn hpid => ?_⟩
  by_cases hj : j = (t.selectRefill vpn pid).1
  · exact hj.ge
  · rw [Tlb.insert_get, if_neg hj, TlbEntry.aged_vpn] at hvpn
    rw [Tlb.insert_get, if_neg hj, TlbEntry.aged_pid] at hpid
    obtain ⟨-, -, hle⟩ := Tlb.selectRefill_of_tagged hvpn hpid
    exact hle

/-- An address whose page `lookup_valid` finds resolves in the frame of the slot found. -/
theorem State.virtualToPhysical_hit {s : State} {va : VirtAddr} {vpn : Vpn} {pid : Pid} {k : Slot}
    (hvpn : vpn.toNat = va.toNat >>> s.cfgOff.toNat) (hfound : s.tlb.lookupValid vpn pid = some k) :
    s.virtualToPhysical va pid =
      .ok (s.tlb.hitAccess k) (composedAddress s (s.tlb.get k).pfn va) { s with tlb := s.tlb.hitTouch s.params k } := by
  refine State.virtualToPhysical_eq_ok_iff.2 ⟨?_, rfl⟩
  rw [State.vpnOf_eq hvpn]
  exact State.translate_hit hfound

/-- A MAP leaves its page to be found in the slot that it reports, with its frame. -/
theorem Completes.found_of_map {s t : State} {pid : Pid} {vpn : Vpn} {pfn : Pfn}
    (h : Completes s (.map pid vpn pfn) t) :
    t.tlb.lookupValid vpn pid = some t.resp.slot ∧ (t.tlb.get t.resp.slot).pfn = pfn := by
  cases h
  rw [State.answer_resp, State.answer_tlb, Inserted.response_slot, Tlb.insert_slot, Tlb.insert_get_chosen]
  exact ⟨s.tlb.lookupValid_insert s.params.ageBits vpn pid pfn, rfl⟩

/-- XLATE and LOAD of an address whose page `lookup_valid` finds both answer that hit, and LOAD the word there, if the
slot's frame is in range (44_memory_access.md R81, R83). -/
theorem xlate_and_load_of_found {s : State} {va : VirtAddr} {vpn : Vpn} {pid : Pid} {pfn : Pfn} {k : Slot}
    (hfound : s.tlb.lookupValid vpn pid = some k) (hframe : (s.tlb.get k).pfn = pfn) (hready : s.Ready)
    (hva : va.toNat < 2 ^ (s.cfgVpn.toNat + s.cfgOff.toNat)) (hvpn : vpn.toNat = va.toNat >>> s.cfgOff.toNat)
    (hpfn : pfn.toNat < 2 ^ s.cfgPfn.toNat) :
    ∃ u v, exec (.xlate pid va) s = .next u ∧ exec (.load pid va) s = .next v ∧
      u.resp = { Response.zero with
        hit := true, slotOk := true, slot := k, pfn := pfn, pa := BitVec.ofNat 16 (composedAddress s pfn va) } ∧
      v.resp = { u.resp with data := s.memRead (composedAddress s pfn va) } := by
  obtain ⟨hh, hconf⟩ := hready
  subst hframe
  have hv := State.virtualToPhysical_hit hvpn hfound
  have hword : s.hasWord (composedAddress s (s.tlb.get k).pfn va) = true := decide_eq_true (s.physAddr_lt _ va hpfn)
  exact ⟨_, _, (Completes.xlate hv).exec_eq hh hconf (decide_eq_true hva),
    (Completes.load hv hword).exec_eq hh hconf (decide_eq_true hva), rfl, rfl⟩

/-- Settles O35: the page is found in the slot that the MAP filled, with the frame that was in range for the MAP. -/
theorem accessAfterMapHits : Obligations.AccessAfterMapHits := by
  intro s t pid vpn pfn va hexec hok hpage
  obtain ⟨hh, hconf, hrange, hmap⟩ := checks_passed_of_status_ok hexec hok
  obtain ⟨hvpn, hpfn⟩ := of_decide_eq_true hrange
  obtain ⟨hfound, hframe⟩ := hmap.found_of_map
  have hva := State.va_lt_of_page_lt hpage hvpn
  cases hmap
  exact xlate_and_load_of_found hfound hframe ⟨hh, hconf⟩ hva hpage.symm hpfn

/-! ### After an UNMAP -/

/-- Settles O36: the UNMAP cleared the page-table entry's valid bit, so by I3 no valid slot carries its tag. -/
theorem accessAfterUnmapNotMapped : Obligations.AccessAfterUnmapNotMapped := by
  intro s t pid vpn va i hs hexec hok hpage hi
  obtain ⟨-, -, -, -, -, -, -, -, hagrees, -⟩ := exec_keeps_inv hs hexec
  obtain ⟨hh, hconf, hrange, hunmap⟩ := checks_passed_of_status_ok hexec hok
  have hva := State.va_lt_of_page_lt hpage (of_decide_eq_true hrange)
  cases hunmap
  have hinvalid : ((s.pageTables.ptUnmap pid vpn).ptLookup pid vpn).valid = false := by
    rw [PageTables.ptLookup_ptUnmap, if_pos ⟨rfl, rfl⟩]
  have hmiss := State.TlbAgreesWithPageTables.lookupValid_eq_none hagrees hinvalid
  exact unmappedAccessAnswersPageNotMapped _ pid va vpn i ⟨hh, hconf⟩ hva hpage.symm
    (Tlb.lookupValid_eq_none_iff.1 hmiss) hinvalid hi

end Sys2Proof.Machine
